-- ==== Sys2Proof/Word.lean ====
section
/-! DEFINITION. The two widths of the block (spec/00_scope.md R10): a word is 32 bits, a wide word 64. -/

namespace Sys2Proof

/-- A *word*: 32 bits, unsigned unless a rule says signed (R10, R14). -/
abbrev Word := BitVec 32

/-- A *wide word*: 64 bits, unsigned unless a rule says signed (R10, R14). -/
abbrev Wide := BitVec 64

end Sys2Proof
end

