-- ==== Sys2Proof/Machine/Operands.lean ====
section
/-! DEFINITION. The views and assemblies of words: the halves of a wide word (R14, R20), the low word first order in which
a wide value is carried (R35, R48), and the one signed reading of an operand (R15, R95). -/

namespace Sys2Proof.Machine

/-- `lo32(v) = v[31:0]` (R14). -/
def lo32 (v : Wide) : Word := v.extractLsb' 0 32

/-- `hi32(v) = v[63:32]` (R14). -/
def hi32 (v : Wide) : Word := v.extractLsb' 32 32

/-- The wide word `hi:lo` carried in two operand words, low half first (R35, R48). -/
def wideOf (lo hi : Word) : Wide := hi ++ lo

/-- `signed(v)` of a wide operand (R15): two's complement. -/
def signedWide (v : Wide) : Int := if v.getLsbD 63 then (v.toNat : Int) - 2 ^ 64 else (v.toNat : Int)

end Sys2Proof.Machine
end

