-- ==== Sys2Proof/Syntax.lean ====
section
/-! DEFINITION. The command record of spec/30_encoding.md R46, and the thirteen commands of R51 as one inductive, one
constructor per row of spec/opcode_table.json. Operands stand in a constructor as the rule of the command names them. -/

namespace Sys2Proof

/-- A command as the host sends it: the command word and the four operand words (R46). -/
structure Command where
  cw : Word
  w0 : Word
  w1 : Word
  w2 : Word
  w3 : Word
deriving DecidableEq, Repr

/-- The decoded commands (R51). -/
inductive Instr where
  /-- `SEED.RND` (R70). -/
  | seedRnd
  /-- `SEED.1 lo` (R71). -/
  | seed1 (lo : Word)
  /-- `SEED.2 lo, hi` (R72). -/
  | seed2 (lo hi : Word)
  /-- `SEED.4 lo, hi, incLo, incHi` (R73). -/
  | seed4 (lo hi incLo incHi : Word)
  /-- `SEED.W seed` (R74). -/
  | seedW (seed : Wide)
  /-- `SEED.WI seed, inc` (R75). -/
  | seedWI (seed inc : Wide)
  /-- `SETSTATE` of an array of length `len`, whose carried elements are `e0` to `e3` (R77). -/
  | setState (len : Nat) (e0 e1 e2 e3 : Word)
  /-- `GETSTATE` (R78). -/
  | getState
  /-- `NEXT32` (R90). -/
  | next32
  /-- `INTEGER.RAW` (R93). -/
  | integerRaw
  /-- `INTEGER.U max` (R94). -/
  | integerU (max : Word)
  /-- `INTEGER.S max` (R95): the 64 bits of `max`, whose sign the rule of the command reads. -/
  | integerS (max : Wide)
  /-- `NUMBER` (R101). -/
  | number
deriving DecidableEq, Repr

/-- Why a command word decodes to *illegal* (R53). -/
inductive Illegal where
  /-- A bit of `CW[31:8]` is set (R53 a). -/
  | reservedBit
  /-- `OP` is 0 or 7 to 15 (R53 b). -/
  | undefinedOp
  /-- The opcode does not define this pair of type and count (R53 c and d). -/
  | undefinedShape
deriving DecidableEq, Repr

end Sys2Proof
end

