-- ==== Sys2Proof/WellFormed.lean ====
section
/-! DEFINITION. Which terms of `Instr` a command word can carry. Every operand is a word or a wide word and fits by its
type; the one check is the array length of `SETSTATE`, which travels in the three bits of `N` (R47, I13). -/

namespace Sys2Proof

/-- `SETSTATE`'s array length is 0 to 7; the other commands are well-formed as they stand. -/
def Instr.wellFormed : Instr → Bool
  | .setState len _ _ _ _ => decide (len ≤ 7)
  | .seedRnd => true
  | .seed1 _ => true
  | .seed2 _ _ => true
  | .seed4 _ _ _ _ => true
  | .seedW _ => true
  | .seedWI _ _ => true
  | .getState => true
  | .next32 => true
  | .integerRaw => true
  | .integerU _ => true
  | .integerS _ => true
  | .number => true

end Sys2Proof
end

