-- ==== Sys2Proof/Decode.lean ====
section
/-! DEFINITION. Decoding of a command (spec/30_encoding.md R47, R48, R51 to R53), total on any five words and rejecting by
name, and the encoder written from the same tables. -/

namespace Sys2Proof

open Machine (wideOf lo32 hi32)

/-- `OP = CW[3:0]` (R47). -/
def fieldOp (cw : Word) : Nat := (cw.extractLsb' 0 4).toNat

/-- `N = CW[6:4]` (R47). -/
def fieldN (cw : Word) : Nat := (cw.extractLsb' 4 3).toNat

/-- `T = CW[7]` (R47). -/
def fieldT (cw : Word) : Nat := (cw.extractLsb' 7 1).toNat

/-- `RSV = CW[31:8]` (R47). -/
def fieldRsv (cw : Word) : Nat := (cw.extractLsb' 8 24).toNat

/-- `OP` = 1: the fresh-seed forms, by (`T`, `N`) (R52). -/
def decodeSeed (t n : Nat) (c : Command) : Except Illegal Instr :=
  match t, n with
  | 0, 0 => .ok .seedRnd
  | 0, 1 => .ok (.seed1 c.w0)
  | 0, 2 => .ok (.seed2 c.w0 c.w1)
  | 0, 4 => .ok (.seed4 c.w0 c.w1 c.w2 c.w3)
  | 1, 1 => .ok (.seedW (wideOf c.w0 c.w1))
  | 1, 2 => .ok (.seedWI (wideOf c.w0 c.w1) (wideOf c.w2 c.w3))
  | _, _ => .error .undefinedShape

/-- `OP` = 2: `SETSTATE` with every length, `T` = 0 (R52, R53 d). -/
def decodeSetState (t n : Nat) (c : Command) : Except Illegal Instr :=
  if t = 0 then .ok (.setState n c.w0 c.w1 c.w2 c.w3) else .error .undefinedShape

/-- `OP` = 5: the forms of `INTEGER`, by (`T`, `N`) (R52). -/
def decodeInteger (t n : Nat) (c : Command) : Except Illegal Instr :=
  match t, n with
  | 0, 0 => .ok .integerRaw
  | 0, 1 => .ok (.integerU c.w0)
  | 1, 1 => .ok (.integerS (wideOf c.w0 c.w1))
  | _, _ => .error .undefinedShape

/-- `OP` = 3, 4, 6: a command without arguments, (`T`, `N`) = (0, 0) only (R52). -/
def decodePlain (t n : Nat) (i : Instr) : Except Illegal Instr :=
  if t = 0 ∧ n = 0 then .ok i else .error .undefinedShape

/-- Decoding (R52): reads nothing but `CW` to choose the command, then assembles its operands (R48). -/
def decode (c : Command) : Except Illegal Instr :=
  match c with
  | ⟨cw, _, _, _, _⟩ =>
    if fieldRsv cw ≠ 0 then .error .reservedBit
    else
      match fieldOp cw with
      | 1 => decodeSeed (fieldT cw) (fieldN cw) c
      | 2 => decodeSetState (fieldT cw) (fieldN cw) c
      | 3 => decodePlain (fieldT cw) (fieldN cw) .getState
      | 4 => decodePlain (fieldT cw) (fieldN cw) .next32
      | 5 => decodeInteger (fieldT cw) (fieldN cw) c
      | 6 => decodePlain (fieldT cw) (fieldN cw) .number
      | _ => .error .undefinedOp

/-- `CW` of an opcode, type and count: `OP + 16*N + 128*T` with `RSV = 0` (R51). -/
def commandWord (op t n : Nat) : Word := BitVec.ofNat 32 (op + 16 * n + 128 * t)

/-- The command of an instruction (R51, R55); the words a command ignores are 0, as the spec's scripts put them. -/
def encode : Instr → Command
  | .seedRnd => ⟨commandWord 1 0 0, 0, 0, 0, 0⟩
  | .seed1 lo => ⟨commandWord 1 0 1, lo, 0, 0, 0⟩
  | .seed2 lo hi => ⟨commandWord 1 0 2, lo, hi, 0, 0⟩
  | .seed4 lo hi incLo incHi => ⟨commandWord 1 0 4, lo, hi, incLo, incHi⟩
  | .seedW seed => ⟨commandWord 1 1 1, lo32 seed, hi32 seed, 0, 0⟩
  | .seedWI seed inc => ⟨commandWord 1 1 2, lo32 seed, hi32 seed, lo32 inc, hi32 inc⟩
  | .setState len e0 e1 e2 e3 => ⟨commandWord 2 0 len, e0, e1, e2, e3⟩
  | .getState => ⟨commandWord 3 0 0, 0, 0, 0, 0⟩
  | .next32 => ⟨commandWord 4 0 0, 0, 0, 0, 0⟩
  | .integerRaw => ⟨commandWord 5 0 0, 0, 0, 0, 0⟩
  | .integerU max => ⟨commandWord 5 0 1, max, 0, 0, 0⟩
  | .integerS max => ⟨commandWord 5 1 1, lo32 max, hi32 max, 0, 0⟩
  | .number => ⟨commandWord 6 0 0, 0, 0, 0, 0⟩

/-- The command whose first `nbits` bits are those of `w`, every later bit 0; bit 0 is the least significant bit of `CW`
and the operand words count on from it. -/
def commandOfBits (nbits w : Nat) : Command :=
  let v := w % 2 ^ nbits
  ⟨BitVec.ofNat 32 v, BitVec.ofNat 32 (v / 2 ^ 32), BitVec.ofNat 32 (v / 2 ^ 64), BitVec.ofNat 32 (v / 2 ^ 96),
    BitVec.ofNat 32 (v / 2 ^ 128)⟩

/-- What `decode` reads from a row of the opcode table. -/
def decodeTableWord (nbits w : Nat) : Option Instr :=
  match decode (commandOfBits nbits w) with
  | .ok i => some i
  | .error _ => none

end Sys2Proof
end

