-- ==== Sys2Proof/Config.lean ====
section
/-! DEFINITION. What the spec leaves to the implementation or to the outside: the default increment (R9), the entropy
source's answers (R121) and what `STATE` holds after a reset (R125). Each is a constant without a body, so no proof
can see its value. -/

namespace Sys2Proof.Config

/-- Bits 63..1 of `DEFAULT_INC`, free (R9: the spec gives no value). DESIGN CHOICE, log 3. -/
opaque defaultIncUpper : BitVec 63

/-- `DEFAULT_INC` (R9): any 64-bit value whose bit 0 is 1. -/
def defaultInc : Wide := defaultIncUpper ++ 1#1

/-- The answer of the entropy source to the `n`-th 32-bit draw (R121, I4): free, under no law. DESIGN CHOICE, log 4. -/
opaque entropyWord : Nat → Word

/-- What `STATE` holds after the `n`-th reset event, index 0 being power-on (R31, R125: "unspecified"): free.
DESIGN CHOICE, log 2. -/
opaque unspecifiedState : Nat → Wide

end Sys2Proof.Config
end

