-- ==== Sys2Proof/Machine/State.lean ====
section
/-! DEFINITION. The state of the machine as plain data: the block's 129 bits (spec/10_state.md R17, R18, R22), the two
sides of its interface (commands sent and not yet accepted, responses delivered), and the two counters that index the
free values of Config. -/

namespace Sys2Proof.Machine

/-- The status of a response (spec/60_exceptions.md R108): exactly five values. -/
inductive Status where
  /-- `OK`, code 0. -/
  | ok
  /-- `InvalidState`, code 1 (R109). -/
  | invalidState
  /-- `InvalidRange`, code 2 (R110). -/
  | invalidRange
  /-- `IllegalCommand`, code 3 (R111). -/
  | illegalCommand
  /-- `NotSeeded`, code 4 (R112). -/
  | notSeeded
deriving DecidableEq, Repr

/-- A response (spec/30_encoding.md R50): status and four data words. -/
structure Response where
  st : Status
  r0 : Word
  r1 : Word
  r2 : Word
  r3 : Word
deriving DecidableEq, Repr

/-- What the host can do to the block (R13): send a command, or assert reset between commands (R126). -/
inductive Input where
  | command (c : Command)
  | reset
deriving DecidableEq, Repr

/-- Why a step stops. The block's own faults are NOT here: they are statuses of a response, after which the block goes on
(R107, R116). -/
inductive Fault where
  /-- Raised by `INTEGER.U` and `INTEGER.S` when the rejection loop rejects its candidate at every one of 2^64 successive
  states, so that the block would never respond: the *stuck* outcome of R99 and I11, no status of the block. It needs an
  even `INC`, which no reachable state has (R19). Safe: the model stops where the hardware never answers. -/
  | rejectionLoopStuck
deriving DecidableEq, Repr

/-- Why a step has no meaning. -/
inductive Refusal where
  /-- Raised only by an arm of `exec` whose instruction has no meaning yet; no arm does so now. Safe. -/
  | notModelled (mnemonic : String)
deriving DecidableEq, Repr

/-- The machine. -/
structure State where
  /-- `STATE`, the working register (R17). -/
  state : Wide
  /-- `INC`, the stream constant (R18). -/
  inc : Wide
  /-- `SEEDED`, the lifecycle flag (R22). -/
  seeded : Bool
  /-- What the host has sent and the block has not yet accepted, oldest first (R41). -/
  pending : List Input
  /-- The responses delivered, oldest first (R41, R129). -/
  delivered : List Response
  /-- The model's own: how many entropy words have been drawn; the index of the next free one (log 4). -/
  entropyDraws : Nat
  /-- The model's own: how many reset events have been taken; the index of `STATE`'s free value since then (log 2). -/
  resets : Nat
deriving DecidableEq, Repr

/-- Right after reset (R31, R125): `SEEDED` 0, `INC` the default increment, `STATE` unspecified; nothing sent, nothing
answered. -/
def State.reset : State where
  state := Config.unspecifiedState 0
  inc := Config.defaultInc
  seeded := false
  pending := []
  delivered := []
  entropyDraws := 0
  resets := 0

/-- The outcomes of one step. -/
abbrev Result := Host.Outcome State Fault Refusal

end Sys2Proof.Machine
end

