-- ==== Sys2Proof/Machine/Flags.lean ====
section
/-! DEFINITION. The one flag of the block, `SEEDED` (spec/10_state.md R22), and the code of each status (R108). The block has
no carry, overflow, zero or sign flag and no condition code (R25), so no other flag computation exists. -/

namespace Sys2Proof.Machine

/-- `SEEDED <- 1`: a seeding command or `SETSTATE` completes (R22). -/
def State.markSeeded (s : State) : State := { s with seeded := true }

/-- `SEEDED <- 0`: reset only (R22, R125). -/
def State.clearSeeded (s : State) : State := { s with seeded := false }

/-- The value of `ST` (R50, R108). -/
def statusCode : Status → BitVec 4
  | .ok => 0
  | .invalidState => 1
  | .invalidRange => 2
  | .illegalCommand => 3
  | .notSeeded => 4

end Sys2Proof.Machine
end

