-- ==== Sys2Proof/Machine/Arith.lean ====
section
/-! DEFINITION. The functional units of spec/40_wide_arith.md: the 64-bit adder, multiplier and increment shifter, each in
its wide form (the one the machine uses, R59) and in its halved form on pairs (hi, lo) of words. -/

namespace Sys2Proof.Machine

/-- `ADD64(a, b) = (a + b) mod 2^64` (R60). -/
def add64 (a b : Wide) : Wide := a + b

/-- The halved form of `ADD64` (R61), with explicit carry propagation. The result is (rLo, rHi). -/
def add64Halved (aLo aHi bLo bHi : Word) : Word × Word :=
  let s := aLo.toNat + bLo.toNat
  let carry := s / 2 ^ 32
  (BitVec.ofNat 32 s, BitVec.ofNat 32 (aHi.toNat + bHi.toNat + carry))

/-- `MUL64(a, b) = (a * b) mod 2^64` (R62). -/
def mul64 (a b : Wide) : Wide := a * b

/-- The halved form of `MUL64` (R63). The result is (rLo, rHi). -/
def mul64Halved (aLo aHi bLo bHi : Word) : Word × Word :=
  let p0 := aLo.toNat * bLo.toNat
  (BitVec.ofNat 32 p0,
    BitVec.ofNat 32 (p0 / 2 ^ 32 + aLo.toNat * bHi.toNat % 2 ^ 32 + aHi.toNat * bLo.toNat % 2 ^ 32))

/-- `INCXFORM(u) = ((u << 1) | 1) mod 2^64` (R64). -/
def incXform (u : Wide) : Wide := (u <<< 1) ||| 1

/-- The halved form of `INCXFORM` (R65). The result is (rLo, rHi). -/
def incXformHalved (uLo uHi : Word) : Word × Word :=
  ((uLo <<< 1) ||| 1, (uHi <<< 1) ||| (uLo >>> 31))

end Sys2Proof.Machine
end

