-- ==== Sys2Proof/Machine/Permutation.lean ====
section
/-! DEFINITION. The step function and the output permutation of spec/42_step_output.md R82 to R86. -/

namespace Sys2Proof.Machine

/-- `MULTIPLIER`, fixed (spec/00_scope.md R8). -/
def multiplier : Wide := 0x5851F42D4C957F2D

/-- `STEPFN(s, c) = ADD64(MUL64(s, MULTIPLIER), c)` (R82). The constant stands first, which is the same product (R62:
`MUL64` is commutative): Lean's kernel unrolls a product by its second factor, and would unroll a constant there. -/
def stepFn (s c : Wide) : Wide := add64 (mul64 multiplier s) c

/-- `ror32(x, r)` for `r` in 0..31 (R84). -/
def ror32 (x : Word) (r : Nat) : Word :=
  if r = 0 then x else (x >>> r) ||| (x <<< (32 - r))

/-- `XSHRR(old)` (R85): xorshift, then random rotate. -/
def xshrr (old : Wide) : Word :=
  let x := (old >>> 18) ^^^ old
  let xorshifted := (x >>> 27).setWidth 32
  let rotation := (old >>> 59).toNat
  ror32 xorshifted rotation

/-- The halved form of the permutation (R86). -/
def xshrrHalved (oldLo oldHi : Word) : Word :=
  let xsHi := oldHi >>> 18
  let xsLo := (oldLo >>> 18) ||| (oldHi <<< 14)
  let xsHi := xsHi ^^^ oldHi
  let xsLo := xsLo ^^^ oldLo
  let xorshifted := (xsLo >>> 27) ||| (xsHi <<< 5)
  let rotation := (oldHi >>> 27).toNat
  ror32 xorshifted rotation

end Sys2Proof.Machine
end

