-- ==== Sys2Proof/Machine/Ops.lean ====
section
/-! DEFINITION. The named operations over the machine's state, of which every meaning is built: register writes, the
response, raising a fault, the core transition, the entropy draw, the seeding procedure, reset, and accepting the next
input. -/

namespace Sys2Proof.Machine

/-- `STATE <- v` (R15, R17): both halves at once (R20). -/
def State.writeState (s : State) (v : Wide) : State := { s with state := v }

/-- `INC <- v` (R15, R18): both halves at once (R20). -/
def State.writeInc (s : State) (v : Wide) : State := { s with inc := v }

/-- Hand the host one response, after those delivered before it (R41, R50). -/
def State.deliver (s : State) (r : Response) : State := { s with delivered := s.delivered ++ [r] }

/-- `respond(r0, r1, r2, r3)` (R15): the command ends with status `OK` and these data words. -/
def respond (r0 r1 r2 r3 : Word) (s : State) : Result := .next (s.deliver ⟨.ok, r0, r1, r2, r3⟩)

/-- `raise f` (R15, R107, R115): TAKING AN EXCEPTION. The command ends with the fault's status and four zero data words;
no register is written, nothing is saved, no mode changes, and the block is ready for the next command. There is no
return from a fault (R116): the step after this one is an ordinary step. -/
def raise (f : Status) (s : State) : Result := .next (s.deliver ⟨f, 0, 0, 0, 0⟩)

/-- The lifecycle check of `GETSTATE` and the sampling commands (R112): it comes before every operand check (R114). -/
def whenSeeded (s : State) (k : Result) : Result := if s.seeded then k else raise .notSeeded s

/-- The state after one core transition (R89): only `STATE` changes. -/
def State.advance (s : State) : State := s.writeState (stepFn s.state s.inc)

/-- `draw()`, one core transition (R89): the output of the value `STATE` had before the step, and the state after it. -/
def draw (s : State) : Word × State := (xshrr s.state, s.advance)

/-- `draw_32()` (R70, R121): the next word of the entropy source, which is free, and the state that counts it as drawn. -/
def drawEntropy (s : State) : Word × State :=
  (Config.entropyWord s.entropyDraws, { s with entropyDraws := s.entropyDraws + 1 })

/-- `SEEDCORE(seed)` (R67): step from 0, add the seed, step; then `SEEDED <- 1`. It uses the `INC` current when it runs. -/
def seedCore (seed : Wide) (s : State) : State :=
  let s := s.writeState 0
  let s := s.writeState (stepFn s.state s.inc)
  let s := s.writeState (add64 s.state seed)
  let s := s.writeState (stepFn s.state s.inc)
  s.markSeeded

/-- The serialised form of the state, `[stateLo, stateHi, incLo, incHi]` (R21), as an `OK` response (R78). -/
def State.exportWords (s : State) : Response := ⟨.ok, lo32 s.state, hi32 s.state, lo32 s.inc, hi32 s.inc⟩

/-- One more reset event taken: the index of the free value `STATE` holds since then. -/
def State.countReset (s : State) : State := { s with resets := s.resets + 1 }

/-- The reset action (R125): `SEEDED <- 0`, `INC <- DEFAULT_INC`, `STATE <- unspecified`, the last as a fresh free value.
No entropy is drawn and no seeding is performed. -/
def State.applyReset (s : State) : State :=
  let s := s.countReset
  let s := s.clearSeeded
  let s := s.writeInc Config.defaultInc
  s.writeState (Config.unspecifiedState s.resets)

/-- Accept the oldest input the host has sent (R41): it and the state without it, or nothing when none waits. -/
def accept (s : State) : Option (Input × State) :=
  match s.pending with
  | [] => none
  | x :: rest => some (x, { s with pending := rest })

/-- The host sends an input: it waits behind those already sent (R41). -/
def State.send (s : State) (x : Input) : State := { s with pending := s.pending ++ [x] }

end Sys2Proof.Machine
end

