-- ==== Sys2Proof/Machine/Sampling.lean ====
section
/-! DEFINITION. The functions of spec/43_samplers.md: SKEW (R96), RANGED with its fast path (R97, R98), the procedure shared
by the `INTEGER.*` commands (R92), and the 53-bit fraction with its binary64 pattern (R101, R102). -/

namespace Sys2Proof.Machine

/-- `SKEW(m) = ((0 - m) mod 2^32) mod m` (R96). -/
def skew (m : Word) : Word := (0 - m) % m

/-- The number of values `STATE` can have. A rejection loop that has drawn so often has seen every state it can ever reach
(R83: a step is a bijection), so one that has accepted none of them never ends (R99; log 5). -/
def loopBound : Nat := 2 ^ 64

/-- The loop of `RANGED` (R97) for at most `fuel` candidates: the answer and the state after it, or `none` when all were
rejected. -/
def rangedLoop (m : Word) : Nat → State → Option (Word × State)
  | 0, _ => none
  | fuel + 1, s =>
    if (skew m).toNat ≤ (draw s).1.toNat then some ((draw s).1 % m, (draw s).2)
    else rangedLoop m fuel (draw s).2

/-- The power-of-two fast path (R98): one draw, masked. -/
def rangedFast (m : Word) (s : State) : Word × State := ((draw s).1 &&& (m - 1), (draw s).2)

/-- `RANGED(m)` for `1 <= m <= 0xFFFFFFFF`: the fast path, placed before the general path (R97, R98). -/
def ranged (m : Word) (s : State) : Option (Word × State) :=
  if m &&& (m - 1) = 0 then some (rangedFast m s) else rangedLoop m loopBound s

/-- The raw path: one draw, answered whole (R92). -/
def respondDraw (s : State) : Result := respond (draw s).1 0 0 0 (draw s).2

/-- The ranged path: the value of `RANGED(m)`, or stuck where its loop never ends (R92, R99). -/
def respondRanged (m : Word) (s : State) : Result :=
  match ranged m s with
  | some (v, t) => respond v 0 0 0 t
  | none => .fault .rejectionLoopStuck

/-- `INTEGER_PROC(m)` (R92), for a mathematical integer `m`: the checks come before any transition. -/
def integerProc (m : Int) (s : State) : Result :=
  whenSeeded s <|
    if m < 0 then raise .invalidRange s
    else if m > 0xFFFFFFFF then raise .invalidRange s
    else if m = 0 then respondDraw s
    else respondRanged (BitVec.ofInt 32 m) s

/-- The 53-bit integer `K` of two outputs (R101): the low 26 bits of the first above the low 27 bits of the second. -/
def fraction53 (a b : Word) : Nat :=
  let hi := (a &&& 0x03FFFFFF).toNat
  let lo := (b &&& 0x07FFFFFF).toNat
  2 ^ 27 * hi + lo

/-- `BINARY64(K)` (R102): the bit pattern of the double `K / 2^53`, for `0 <= K < 2^53`. -/
def binary64 (k : Nat) : Wide :=
  if k = 0 then 0
  else
    let p := Nat.log2 k
    let e := 970 + p
    let f := 2 ^ (52 - p) * k % 2 ^ 52
    BitVec.ofNat 64 (2 ^ 52 * e + f)

/-- The response of `NUMBER` (R101): the pattern in `R1:R0` and `K` in `R3:R2`, low halves first. -/
def respondFraction (k : Nat) (s : State) : Result :=
  let d := binary64 k
  respond (lo32 d) (hi32 d) (BitVec.ofNat 32 k) (BitVec.ofNat 32 (k / 2 ^ 32)) s

end Sys2Proof.Machine
end

