-- ==== Sys2Proof/Machine/Samplers.lean ====
section
/-! DEFINITION. The meanings of the sampling commands (spec/42_step_output.md R90, spec/43_samplers.md R93 to R101). -/

namespace Sys2Proof.Machine

/-- `NEXT32` (R90). -/
def execNext32 (s : State) : Result := whenSeeded s (respondDraw s)

/-- `INTEGER.RAW` (R93): `max` absent. -/
def execIntegerRaw (s : State) : Result := integerProc 0 s

/-- `INTEGER.U max` (R94): an unsigned word. -/
def execIntegerU (max : Word) (s : State) : Result := integerProc max.toNat s

/-- `INTEGER.S max` (R95): a two's-complement wide word. -/
def execIntegerS (max : Wide) (s : State) : Result := integerProc (signedWide max) s

/-- `NUMBER` (R101): two transitions, the first output supplying the high bits. -/
def execNumber (s : State) : Result :=
  whenSeeded s <|
    let a := draw s
    let b := draw a.2
    respondFraction (fraction53 a.1 b.1) b.2

end Sys2Proof.Machine
end

