-- ==== Sys2Proof/Machine/Seeding.lean ====
section
/-! DEFINITION. The meanings of the seeding commands, the state restore and the state export (spec/41_seeding.md R70 to
R78). -/

namespace Sys2Proof.Machine

/-- What a completed seeding command or `SETSTATE` answers (R70 to R77). -/
def respondDone (s : State) : Result := respond 0 0 0 0 s

/-- `SEED.RND` (R70): two entropy words, low first, as the seed; `INC` is kept (90_conflicts.md C2). -/
def execSeedRnd (s : State) : Result :=
  let lo := drawEntropy s
  let hi := drawEntropy lo.2
  respondDone (seedCore (wideOf lo.1 hi.1) hi.2)

/-- `SEED.1 lo` (R71): the high half of the seed is 0; `INC` is kept. -/
def execSeed1 (lo : Word) (s : State) : Result := respondDone (seedCore (lo.setWidth 64) s)

/-- `SEED.2 lo, hi` (R72): `INC` is kept. -/
def execSeed2 (lo hi : Word) (s : State) : Result := respondDone (seedCore (wideOf lo hi) s)

/-- `SEED.4 lo, hi, incLo, incHi` (R73): the transformed increment is written before the seeding procedure runs. -/
def execSeed4 (lo hi incLo incHi : Word) (s : State) : Result :=
  respondDone (seedCore (wideOf lo hi) (s.writeInc (incXform (wideOf incLo incHi))))

/-- `SEED.W seed` (R74): `INC` is kept. -/
def execSeedW (seed : Wide) (s : State) : Result := respondDone (seedCore seed s)

/-- `SEED.WI seed, inc` (R75): the transformed increment is written before the seeding procedure runs. -/
def execSeedWI (seed inc : Wide) (s : State) : Result := respondDone (seedCore seed (s.writeInc (incXform inc)))

/-- `SETSTATE [e0, e1, e2, e3]` (R77): `InvalidState` unless the length is 4; else the state verbatim, bit 0 of the
increment forced. -/
def execSetState (len : Nat) (e0 e1 e2 e3 : Word) (s : State) : Result :=
  if len ≠ 4 then raise .invalidState s
  else
    let s := s.writeState (wideOf e0 e1)
    let s := s.writeInc (wideOf e2 e3 ||| 1)
    respondDone s.markSeeded

/-- `GETSTATE` (R78): `NotSeeded` before the first seeding; else the four words, nothing written. -/
def execGetState (s : State) : Result := whenSeeded s (.next (s.deliver s.exportWords))

end Sys2Proof.Machine
end

