-- ==== Sys2Proof/Machine/Dispatch.lean ====
section
/-! DEFINITION. One arm per command. -/

namespace Sys2Proof.Machine

def exec (i : Instr) (s : State) : Host.Outcome State Fault Refusal :=
  match i with
  | .seedRnd => Sys2Proof.Machine.execSeedRnd s
  | .seed1 lo => Sys2Proof.Machine.execSeed1 lo s
  | .seed2 lo hi => Sys2Proof.Machine.execSeed2 lo hi s
  | .seed4 lo hi incLo incHi => Sys2Proof.Machine.execSeed4 lo hi incLo incHi s
  | .seedW seed => Sys2Proof.Machine.execSeedW seed s
  | .seedWI seed inc => Sys2Proof.Machine.execSeedWI seed inc s
  | .setState len e0 e1 e2 e3 => Sys2Proof.Machine.execSetState len e0 e1 e2 e3 s
  | .getState => Sys2Proof.Machine.execGetState s
  | .next32 => Sys2Proof.Machine.execNext32 s
  | .integerRaw => Sys2Proof.Machine.execIntegerRaw s
  | .integerU max => Sys2Proof.Machine.execIntegerU max s
  | .integerS max => Sys2Proof.Machine.execIntegerS max s
  | .number => Sys2Proof.Machine.execNumber s

end Sys2Proof.Machine
end

