-- ==== Sys2Proof/Machine/Step.lean ====
section
/-! DEFINITION. One step: the block accepts the oldest input of the host and completes it. -/

namespace Sys2Proof.Machine

/-- One step. Nothing sent: the state is held (R124). A reset event: the reset action (R125). A command: decoded and
executed, or answered `IllegalCommand` (R52, R111). -/
def step (s : State) : Host.Outcome State Fault Refusal :=
  match accept s with
  | none => .next s
  | some (.reset, t) => .next t.applyReset
  | some (.command c, t) =>
    match decode c with
    | .ok i => exec i t
    | .error _ => raise .illegalCommand t

/-- `s` with one command more, at the head of what the host has sent: the command whose first `nbits` bits are those of
`w`, all later bits 0. The next step accepts exactly it (log 1). -/
def State.withFetchWord (s : State) (nbits w : Nat) : State :=
  { s with pending := .command (commandOfBits nbits w) :: s.pending }

end Sys2Proof.Machine
end

