-- ==== Sys2Proof/Machine/Script.lean ====
section
/-! DEFINITION. The spec's script lines as terms, with their encoding as commands (spec/30_encoding.md R55), and the
pseudo-commands that spell the source's operation names (R56). The block never sees these: they are how a host's program is
written down. -/

namespace Sys2Proof.Machine

/-- A line of a script (R55), its operands the literals as they are written. -/
inductive ScriptLine where
  | seedRnd
  | seed1 (lo : Nat)
  | seed2 (lo hi : Nat)
  | seed4 (lo hi incLo incHi : Nat)
  | seedW (seed : Nat)
  | seedWI (seed inc : Nat)
  | setState (elems : List Nat)
  | getState
  | next32
  | integerRaw
  | integerU (max : Nat)
  | integerS (max : Int)
  | number
deriving DecidableEq, Repr

/-- A pseudo-command (R56), in the source's spelling. -/
inductive PseudoCommand where
  /-- `next32()` -/
  | next32
  /-- `integer()` and `integer(m)` -/
  | integer (max : Option Int)
  /-- `number()` -/
  | number
  /-- `getState()` -/
  | getState
  /-- `setState([e0..])` -/
  | setState (elems : List Nat)
  /-- `seed()`, `seed(lo)`, `seed(lo, hi)`, `seed(lo, hi, incLo, incHi)` -/
  | seed (args : List Nat)
  /-- `seedw(s)` and `seedw(s, i)` -/
  | seedw (seed : Nat) (inc : Option Nat)
  /-- `seed([e0..])` -/
  | seedArray (elems : List Nat)
deriving DecidableEq, Repr

/-- A literal as a 32-bit operand word; none when it does not fit (log 7). -/
def literalWord (n : Nat) : Option Word := if n < 2 ^ 32 then some (BitVec.ofNat 32 n) else none

/-- A literal as a 64-bit operand; none when it does not fit (log 7). -/
def literalWide (n : Nat) : Option Wide := if n < 2 ^ 64 then some (BitVec.ofNat 64 n) else none

/-- The literal of `INTEGER.S` (R55): unsigned, or negative in two's complement on 64 bits; none when it does not fit. -/
def literalSigned (n : Int) : Option Wide :=
  if -2 ^ 63 ≤ n ∧ n < 2 ^ 64 then some (BitVec.ofInt 64 n) else none

/-- The element words of `SETSTATE [..]`: the first four, 0 where there is none; later elements are dropped (R55). -/
def elementWord (elems : List Nat) (k : Nat) : Option Word := literalWord (elems.getD k 0)

/-- The encoding of a script line (R55): words it does not use are 0, a list of more than seven elements is none. -/
def ScriptLine.assemble : ScriptLine → Option Command
  | .seedRnd => some (encode .seedRnd)
  | .seed1 lo => do return encode (.seed1 (← literalWord lo))
  | .seed2 lo hi => do return encode (.seed2 (← literalWord lo) (← literalWord hi))
  | .seed4 lo hi incLo incHi => do
    return encode (.seed4 (← literalWord lo) (← literalWord hi) (← literalWord incLo) (← literalWord incHi))
  | .seedW seed => do return encode (.seedW (← literalWide seed))
  | .seedWI seed inc => do return encode (.seedWI (← literalWide seed) (← literalWide inc))
  | .setState elems =>
    if elems.length ≤ 7 then do
      return encode (.setState elems.length (← elementWord elems 0) (← elementWord elems 1) (← elementWord elems 2)
        (← elementWord elems 3))
    else none
  | .getState => some (encode .getState)
  | .next32 => some (encode .next32)
  | .integerRaw => some (encode .integerRaw)
  | .integerU max => do return encode (.integerU (← literalWord max))
  | .integerS max => do return encode (.integerS (← literalSigned max))
  | .number => some (encode .number)

/-- The one script line a pseudo-command stands for (R56); none for a call R56 does not list. -/
def PseudoCommand.expand : PseudoCommand → Option ScriptLine
  | .next32 => some .next32
  | .integer none => some .integerRaw
  | .integer (some m) =>
    if 0 ≤ m ∧ m ≤ 0xFFFFFFFF then some (.integerU m.toNat)
    else if -2 ^ 63 ≤ m ∧ m < 2 ^ 63 then some (.integerS m)
    else none
  | .number => some .number
  | .getState => some .getState
  | .setState elems => some (.setState elems)
  | .seed [] => some .seedRnd
  | .seed [lo] => some (.seed1 lo)
  | .seed [lo, hi] => some (.seed2 lo hi)
  | .seed [lo, hi, incLo, incHi] => some (.seed4 lo hi incLo incHi)
  | .seed _ => none
  | .seedw s none => some (.seedW s)
  | .seedw s (some i) => some (.seedWI s i)
  | .seedArray elems => some (.setState elems)

end Sys2Proof.Machine
end

