-- ==== Sys2Proof/Safety.lean ====
section
/-! DEFINITION. The terms claims are stated in: the invariant of the reachable states, what the host and the block can see of
a state, runs of a script, and the sequence of states the core transition visits. -/

namespace Sys2Proof.Machine

/-- `INC[0] = 1` (spec/10_state.md R19). -/
abbrev State.IncOdd (s : State) : Prop := s.inc.getLsbD 0 = true

/-- While `SEEDED = 0` nothing has been written since reset (R22): `INC` is still the default and `STATE` still what the
reset left. -/
abbrev State.UntouchedUntilSeeded (s : State) : Prop :=
  s.seeded = false → s.inc = Config.defaultInc ∧ s.state = Config.unspecifiedState s.resets

/-- All four data words are 0 unless the status is `OK` (spec/30_encoding.md R50). -/
abbrev Response.BlankOnFault (r : Response) : Prop := r.st ≠ .ok → r.r0 = 0 ∧ r.r1 = 0 ∧ r.r2 = 0 ∧ r.r3 = 0

/-- The invariant that every step keeps. -/
structure State.Inv (s : State) : Prop where
  incOdd : s.IncOdd
  untouched : s.UntouchedUntilSeeded
  blank : ∀ r ∈ s.delivered, r.BlankOnFault

/-- The states a host can bring the machine to, from reset: a step of the machine, or one more input sent. -/
inductive Reachable : State → Prop where
  | reset : Reachable State.reset
  | step {s t : State} : Reachable s → step s = .next t → Reachable t
  | send {s : State} (x : Input) : Reachable s → Reachable (s.send x)

/-- Equal architectural state: `STATE`, `INC`, `SEEDED` (R17, R18, R22). -/
structure SameRegs (a b : State) : Prop where
  state : a.state = b.state
  inc : a.inc = b.inc
  seeded : a.seeded = b.seeded

/-- The machine answers a next state. -/
abbrev Answers (r : Result) : Prop := ∃ t, r = .next t

/-- The responses a state has delivered beyond those of an earlier one are `rs`. -/
abbrev Delivers (s t : State) (rs : List Response) : Prop := t.delivered = s.delivered ++ rs

/-- A script of decoded commands, run one after the other (spec/70_reset_and_hazards.md R129). -/
def runScript : List Instr → State → Result
  | [], s => .next s
  | i :: is, s =>
    match exec i s with
    | .next t => runScript is t
    | .fault f => .fault f
    | .refused r => .refused r

/-- `STATE` after `n` core transitions (R89). -/
def stateAfter (s : State) (n : Nat) : Wide := (fun v => stepFn v s.inc)^[n] s.state

/-- The output of the transition number `n`, counted from 0 (R89). -/
def outputAt (s : State) (n : Nat) : Word := xshrr (stateAfter s n)

/-- `t` is `s` after `n` core transitions and one response (R38: nothing else moves). -/
abbrev SteppedWith (s t : State) (n : Nat) (r : Response) : Prop :=
  t = { s with state := stateAfter s n, delivered := s.delivered ++ [r] }

/-- What `integer(m)` answers for a word `m` (R92, R97), in the spec's own arithmetic: for `m = 0` one raw draw; else the
first candidate not below `(2^32 - m) mod m`, reduced modulo `m`, every earlier one having been below. -/
def IntegerAnswer (m : Word) (s t : State) : Prop :=
  (m = 0 ∧ SteppedWith s t 1 ⟨.ok, outputAt s 0, 0, 0, 0⟩) ∨
  (m ≠ 0 ∧ ∃ n v, (∀ k < n, (outputAt s k).toNat < (2 ^ 32 - m.toNat) % m.toNat) ∧
    (2 ^ 32 - m.toNat) % m.toNat ≤ (outputAt s n).toNat ∧
    v.toNat = (outputAt s n).toNat % m.toNat ∧ SteppedWith s t (n + 1) ⟨.ok, v, 0, 0, 0⟩)

end Sys2Proof.Machine

namespace Sys2Proof

/-- The commands that never read the entropy source: all but `SEED.RND` (R30). -/
def Instr.deterministic : Instr → Bool
  | .seedRnd => false
  | .seed1 _ => true
  | .seed2 _ _ => true
  | .seed4 _ _ _ _ => true
  | .seedW _ => true
  | .seedWI _ _ => true
  | .setState _ _ _ _ _ => true
  | .getState => true
  | .next32 => true
  | .integerRaw => true
  | .integerU _ => true
  | .integerS _ => true
  | .number => true

/-- The commands that need `SEEDED` (R112). -/
def Instr.needsSeeding : Instr → Bool
  | .seedRnd => false
  | .seed1 _ => false
  | .seed2 _ _ => false
  | .seed4 _ _ _ _ => false
  | .seedW _ => false
  | .seedWI _ _ => false
  | .setState _ _ _ _ _ => false
  | .getState => true
  | .next32 => true
  | .integerRaw => true
  | .integerU _ => true
  | .integerS _ => true
  | .number => true

/-- The commands that may write `INC` (R18, R30). -/
def Instr.writesInc : Instr → Bool
  | .seedRnd => false
  | .seed1 _ => false
  | .seed2 _ _ => false
  | .seed4 _ _ _ _ => true
  | .seedW _ => false
  | .seedWI _ _ => true
  | .setState _ _ _ _ _ => true
  | .getState => false
  | .next32 => false
  | .integerRaw => false
  | .integerU _ => false
  | .integerS _ => false
  | .number => false

/-- The statuses a command can end in (spec/60_exceptions.md R113). -/
def Instr.mayEnd : Instr → Machine.Status → Bool
  | .seedRnd, st => st == .ok
  | .seed1 _, st => st == .ok
  | .seed2 _ _, st => st == .ok
  | .seed4 _ _ _ _, st => st == .ok
  | .seedW _, st => st == .ok
  | .seedWI _ _, st => st == .ok
  | .setState len _ _ _ _, st => st == (if len = 4 then .ok else .invalidState)
  | .getState, st => st == .ok || st == .notSeeded
  | .next32, st => st == .ok || st == .notSeeded
  | .integerRaw, st => st == .ok || st == .notSeeded
  | .integerU _, st => st == .ok || st == .notSeeded
  | .integerS _, st => st == .ok || st == .invalidRange || st == .notSeeded
  | .number, st => st == .ok || st == .notSeeded

end Sys2Proof
end

