-- ==== Sys2Proof/Certificates/Slice0/Obligations.lean ====
section
/-! DEFINITION. The statements for the provers. Each docstring names the rule of spec/ it formalises. -/

open Sys2Proof Sys2Proof.Machine

/-! ### Reset, the invariant, and steps -/

/-- R31: `INC` is the default increment, which is odd, and `SEEDED` is 0; `STATE` is not observable while `SEEDED = 0`: a
step from two states that differ only in `STATE` answers the same and leaves the same everything, `STATE` included once the
step has seeded. A `SEED.RND` is compared for the same entropy answers: that both steps draw the same words is the model's
choice (log 4). -/
def Obligations.UnseededStateIsUnobservable : Prop :=
  (State.reset.inc = Config.defaultInc ∧ State.reset.IncOdd ∧ State.reset.seeded = false) ∧
  ∀ (s t : State) (v : Wide), s.seeded = false → step s = .next t →
    ∃ u, step { s with state := v } = .next u ∧ u.inc = t.inc ∧ u.seeded = t.seeded ∧ u.pending = t.pending ∧
      u.delivered = t.delivered ∧ u.entropyDraws = t.entropyDraws ∧ u.resets = t.resets ∧
      (t.seeded = true → u.state = t.state)

/-- The reset action of R125 as the model takes it: the model's choice (log 1, log 2) is that a reset is one input of the
host and that `STATE` becomes a fresh free value. -/
def Obligations.ResetActionLeavesUnseededDefaults : Prop :=
  ∀ (s : State) (rest : List Input), s.pending = .reset :: rest →
    step s = .next { s with
      state := Config.unspecifiedState (s.resets + 1), inc := Config.defaultInc, seeded := false, pending := rest,
      resets := s.resets + 1 }

/-- R19: every value a rule writes to `INC` is odd, and `INC` is odd in every reachable state. -/
def Obligations.IncrementIsOddInEveryReachableState : Prop :=
  Config.defaultInc.getLsbD 0 = true ∧ (∀ u : Wide, (incXform u).getLsbD 0 = true) ∧
  (∀ v : Wide, (v ||| 1).getLsbD 0 = true) ∧ ∀ s, Reachable s → s.IncOdd

/-- R19, R22, R50 as an invariant of steps from any state: `INC` odd; `INC` and `STATE` as reset left them until seeded;
every response delivered blank on a fault. That an unseeded `STATE` is the opaque value of its reset index is the model's
choice (log 2): the spec says it holds no value. -/
def Obligations.StepKeepsInvariant : Prop :=
  ∀ s t : State, s.Inv → step s = .next t → t.Inv

/-- The invariant holds right after reset. Its clause on `STATE` is the model's choice (log 2). -/
def Obligations.ResetMeetsInvariant : Prop := State.reset.Inv

/-- R132: every command eventually responds, and nothing else stops a step: with `INC` odd a step answers a next state. For
the rejection loop this rests on the termination argument of R99. -/
def Obligations.EveryStepAnswersWhenIncrementOdd : Prop :=
  ∀ s : State, s.IncOdd → Answers (step s)

/-- R41, R50: an accepted command leaves the queue and produces exactly one response, delivered last, whose data words are
0 unless its status is `OK`. -/
def Obligations.EachCommandGetsOneResponse : Prop :=
  ∀ (s t : State) (c : Command) (rest : List Input), s.pending = .command c :: rest → step s = .next t →
    t.pending = rest ∧ ∃ r, Delivers s t [r] ∧ r.BlankOnFault

/-- A step runs the decoded command: the oldest input is taken from the queue and `exec` runs on the rest (R41, R52). -/
def Obligations.StepRunsDecodedCommand : Prop :=
  ∀ (s : State) (c : Command) (rest : List Input) (i : Instr), s.pending = .command c :: rest → decode c = .ok i →
    step s = exec i { s with pending := rest }

/-- R124: between commands the block holds its state unchanged. -/
def Obligations.IdleStepHoldsState : Prop :=
  ∀ s : State, s.pending = [] → step s = .next s

/-! ### The functional units -/

/-- R60. -/
def Obligations.AdderIsModular : Prop :=
  (∀ a b, (add64 a b).toNat = (a.toNat + b.toNat) % 2 ^ 64) ∧ (∀ a b, add64 a b = add64 b a) ∧
  (∀ a b c, add64 (add64 a b) c = add64 a (add64 b c)) ∧ ∀ a, add64 a 0 = a

/-- R61: the halved adder, line by line, and its equality with the wide one. -/
def Obligations.HalvedAdderEqualsWide : Prop :=
  ∀ aLo aHi bLo bHi : Word,
    (add64Halved aLo aHi bLo bHi).1.toNat = (aLo.toNat + bLo.toNat) % 2 ^ 32 ∧
    (add64Halved aLo aHi bLo bHi).2.toNat = (aHi.toNat + bHi.toNat + (aLo.toNat + bLo.toNat) / 2 ^ 32) % 2 ^ 32 ∧
    wideOf (add64Halved aLo aHi bLo bHi).1 (add64Halved aLo aHi bLo bHi).2 = add64 (wideOf aLo aHi) (wideOf bLo bHi)

/-- R62. -/
def Obligations.MultiplierUnitIsModular : Prop :=
  (∀ a b, (mul64 a b).toNat = (a.toNat * b.toNat) % 2 ^ 64) ∧ (∀ a b, mul64 a b = mul64 b a) ∧
  (∀ a b c, mul64 (mul64 a b) c = mul64 a (mul64 b c)) ∧
  (∀ a b c, mul64 a (add64 b c) = add64 (mul64 a b) (mul64 a c)) ∧ (∀ a, mul64 a 1 = a) ∧ ∀ a, mul64 a 0 = 0

/-- R63: the halved multiplier, line by line, and its equality with the wide one. -/
def Obligations.HalvedMultiplierEqualsWide : Prop :=
  ∀ aLo aHi bLo bHi : Word,
    (mul64Halved aLo aHi bLo bHi).1.toNat = (aLo.toNat * bLo.toNat) % 2 ^ 32 ∧
    (mul64Halved aLo aHi bLo bHi).2.toNat =
      (aLo.toNat * bLo.toNat / 2 ^ 32 + aLo.toNat * bHi.toNat % 2 ^ 32 + aHi.toNat * bLo.toNat % 2 ^ 32) % 2 ^ 32 ∧
    wideOf (mul64Halved aLo aHi bLo bHi).1 (mul64Halved aLo aHi bLo bHi).2 = mul64 (wideOf aLo aHi) (wideOf bLo bHi)

/-- R64: the transform as arithmetic and bit by bit; bit 63 of the user increment is lost. -/
def Obligations.IncrementTransformShiftsAndSetsLowBit : Prop :=
  ∀ u : Wide, (incXform u).toNat = (2 * u.toNat + 1) % 2 ^ 64 ∧ (incXform u).getLsbD 0 = true ∧
    (∀ i < 63, (incXform u).getLsbD (i + 1) = u.getLsbD i) ∧
    ∀ w : Wide, (∀ i < 63, w.getLsbD i = u.getLsbD i) → incXform w = incXform u

/-- R65: the halved transform carries the top bit of the low half into the high half, and equals the wide one. -/
def Obligations.HalvedIncrementTransformEqualsWide : Prop :=
  ∀ uLo uHi : Word, (incXformHalved uLo uHi).2.getLsbD 0 = uLo.getLsbD 31 ∧
    wideOf (incXformHalved uLo uHi).1 (incXformHalved uLo uHi).2 = incXform (wideOf uLo uHi)

/-- R82: the step function as arithmetic, as the units compose it, and in halves. -/
def Obligations.StepFunctionIsCongruential : Prop :=
  (∀ s c : Wide, (stepFn s c).toNat = (s.toNat * 0x5851F42D4C957F2D + c.toNat) % 2 ^ 64 ∧
    stepFn s c = add64 (mul64 s 0x5851F42D4C957F2D) c) ∧
  ∀ sLo sHi cLo cHi p r, p = mul64Halved sLo sHi 0x4C957F2D 0x5851F42D → r = add64Halved p.1 p.2 cLo cHi →
    wideOf r.1 r.2 = stepFn (wideOf sLo sHi) (wideOf cLo cHi)

/-- R83: for a fixed increment the step is a bijection; for an odd one it has a single cycle of length 2^64, that is, every
state is met from every state after exactly one number of steps below 2^64. -/
def Obligations.StepHasFullPeriod : Prop :=
  (∀ c : Wide, Function.Bijective fun s => stepFn s c) ∧
  ∀ c s t : Wide, c.getLsbD 0 = true → ∃! n, n < 2 ^ 64 ∧ (fun v => stepFn v c)^[n] s = t

/-- R84: the rotate, by shifts and bit by bit. -/
def Obligations.RotateWrapsWithin32Bits : Prop :=
  ∀ x : Word, ror32 x 0 = x ∧
    ∀ r < 32, (r ≠ 0 → (ror32 x r).toNat = (x.toNat / 2 ^ r ||| x.toNat * 2 ^ (32 - r) % 2 ^ 32)) ∧
      ∀ i < 32, (ror32 x r).getLsbD i = x.getLsbD ((i + r) % 32)

/-- R85: bits 58..27 of `(old >> 18) ^ old`, rotated right by bits 63..59 of `old`. -/
def Obligations.PermutationRotatesXorshiftedBits : Prop :=
  ∀ old : Wide, xshrr old = ror32 (((old >>> 18) ^^^ old).extractLsb' 27 32) (old.extractLsb' 59 5).toNat

/-- R86, R87: the halved form gives the same output for every input. -/
def Obligations.HalvedPermutationEqualsWide : Prop :=
  ∀ old : Wide, xshrrHalved (lo32 old) (hi32 old) = xshrr old

/-- R88: the bits of the output, and that `old[26:0]` has no effect on it. -/
def Obligations.PermutationBitByBit : Prop :=
  (∀ old : Wide, ∃ xs : Nat → Bool,
    (∀ i ≤ 18, xs i = (old.getLsbD (27 + i) ^^ old.getLsbD (45 + i))) ∧
    (∀ i, 19 ≤ i → i ≤ 31 → xs i = old.getLsbD (27 + i)) ∧
    ∀ i < 32, (xshrr old).getLsbD i = xs ((i + old.toNat / 2 ^ 59) % 32)) ∧
  ∀ a b : Wide, a.toNat / 2 ^ 27 = b.toNat / 2 ^ 27 → xshrr a = xshrr b

/-! ### Seeding, restore, export -/

/-- R68: the closed form of the seeding procedure; nothing but `STATE` and `SEEDED` changes. -/
def Obligations.SeedCoreClosedForm : Prop :=
  ∀ (seed : Wide) (s : State), ∃ v : Wide,
    v.toNat = ((s.inc.toNat + seed.toNat) * 0x5851F42D4C957F2D + s.inc.toNat) % 2 ^ 64 ∧
    seedCore seed s = { s with state := v, seeded := true }

/-- R70: two entropy words, low first, form the seed; `INC` is kept. The words are free (log 4). -/
def Obligations.SeedRndResult : Prop :=
  (∀ w0 w1 w2 w3, decode ⟨0x00000001, w0, w1, w2, w3⟩ = .ok .seedRnd) ∧
  ∀ (s : State) (lo hi : Word), lo = Config.entropyWord s.entropyDraws → hi = Config.entropyWord (s.entropyDraws + 1) →
    exec .seedRnd s = .next { s with
      state := stepFn (s.inc + wideOf lo hi) s.inc, seeded := true, entropyDraws := s.entropyDraws + 2,
      delivered := s.delivered ++ [⟨.ok, 0, 0, 0, 0⟩] }

/-- R71: the seed is `W0` extended with zeros; `INC` is kept. -/
def Obligations.Seed1Result : Prop :=
  (∀ w0 w1 w2 w3, decode ⟨0x00000011, w0, w1, w2, w3⟩ = .ok (.seed1 w0)) ∧
  ∀ (s : State) (lo : Word), exec (.seed1 lo) s = .next { s with
    state := stepFn (s.inc + lo.setWidth 64) s.inc, seeded := true,
    delivered := s.delivered ++ [⟨.ok, 0, 0, 0, 0⟩] }

/-- R72: the seed is `W1:W0`; `INC` is kept. -/
def Obligations.Seed2Result : Prop :=
  (∀ w0 w1 w2 w3, decode ⟨0x00000021, w0, w1, w2, w3⟩ = .ok (.seed2 w0 w1)) ∧
  ∀ (s : State) (lo hi : Word), exec (.seed2 lo hi) s = .next { s with
    state := stepFn (s.inc + wideOf lo hi) s.inc, seeded := true,
    delivered := s.delivered ++ [⟨.ok, 0, 0, 0, 0⟩] }

/-- R73: the transformed increment is stored first and used by the seeding. -/
def Obligations.Seed4Result : Prop :=
  (∀ w0 w1 w2 w3, decode ⟨0x00000041, w0, w1, w2, w3⟩ = .ok (.seed4 w0 w1 w2 w3)) ∧
  ∀ (s : State) (lo hi incLo incHi : Word) (c : Wide), c = incXform (wideOf incLo incHi) →
    exec (.seed4 lo hi incLo incHi) s = .next { s with
      state := stepFn (c + wideOf lo hi) c, inc := c, seeded := true,
      delivered := s.delivered ++ [⟨.ok, 0, 0, 0, 0⟩] }

/-- R74: the seed is the wide operand; `INC` is kept. -/
def Obligations.SeedWResult : Prop :=
  (∀ w0 w1 w2 w3, decode ⟨0x00000091, w0, w1, w2, w3⟩ = .ok (.seedW (wideOf w0 w1))) ∧
  ∀ (s : State) (seed : Wide), exec (.seedW seed) s = .next { s with
    state := stepFn (s.inc + seed) s.inc, seeded := true,
    delivered := s.delivered ++ [⟨.ok, 0, 0, 0, 0⟩] }

/-- R75: the transformed increment is stored first and used by the seeding. -/
def Obligations.SeedWIResult : Prop :=
  (∀ w0 w1 w2 w3, decode ⟨0x000000A1, w0, w1, w2, w3⟩ = .ok (.seedWI (wideOf w0 w1) (wideOf w2 w3))) ∧
  ∀ (s : State) (seed inc c : Wide), c = incXform inc →
    exec (.seedWI seed inc) s = .next { s with
      state := stepFn (c + seed) c, inc := c, seeded := true,
      delivered := s.delivered ++ [⟨.ok, 0, 0, 0, 0⟩] }

/-- R76: the seeding forms differ only in the command word. -/
def Obligations.SeedingFormsAreEquivalent : Prop :=
  ∀ (s : State) (lo hi incLo incHi : Word),
    exec (.seed1 lo) s = exec (.seed2 lo 0) s ∧
    exec (.seed2 lo hi) s = exec (.seedW (wideOf lo hi)) s ∧
    exec (.seed4 lo hi incLo incHi) s = exec (.seedWI (wideOf lo hi) (wideOf incLo incHi)) s

/-- R77: the valid form restores verbatim with bit 0 of the increment forced; every other length is `InvalidState` and
writes nothing. -/
def Obligations.SetStateResult : Prop :=
  (∀ n < 8, ∀ w0 w1 w2 w3,
    decode ⟨BitVec.ofNat 32 (0x00000002 + 16 * n), w0, w1, w2, w3⟩ = .ok (.setState n w0 w1 w2 w3)) ∧
  ∀ (s : State) (e0 e1 e2 e3 : Word),
    exec (.setState 4 e0 e1 e2 e3) s = .next { s with
      state := wideOf e0 e1, inc := wideOf e2 e3 ||| 1, seeded := true,
      delivered := s.delivered ++ [⟨.ok, 0, 0, 0, 0⟩] } ∧
    ∀ n ≠ 4, exec (.setState n e0 e1 e2 e3) s = .next { s with
      delivered := s.delivered ++ [⟨.invalidState, 0, 0, 0, 0⟩] }

/-- R78: the four words of the state, low halves first, and nothing written. -/
def Obligations.GetStateResult : Prop :=
  (∀ w0 w1 w2 w3, decode ⟨0x00000003, w0, w1, w2, w3⟩ = .ok .getState) ∧
  ∀ s : State,
    (s.seeded = true → exec .getState s = .next { s with
      delivered := s.delivered ++ [⟨.ok, s.state.extractLsb' 0 32, s.state.extractLsb' 32 32, s.inc.extractLsb' 0 32,
        s.inc.extractLsb' 32 32⟩] }) ∧
    (s.seeded = false → exec .getState s = .next { s with delivered := s.delivered ++ [⟨.notSeeded, 0, 0, 0, 0⟩] })

/-- R79: what `GETSTATE` answers on one instance, `SETSTATE` restores on another, and every later script without `SEED.RND`
answers the same on both: R79 speaks of sampling commands, and a `SEED.RND` would draw other entropy on each. -/
def Obligations.StateRoundTripResumesSequence : Prop :=
  ∀ (a a' b : State) (e0 e1 e2 e3 : Word), a.seeded = true → a.IncOdd → exec .getState a = .next a' →
    Delivers a a' [⟨.ok, e0, e1, e2, e3⟩] →
    ∃ b', exec (.setState 4 e0 e1 e2 e3) b = .next b' ∧ b'.state = a'.state ∧ b'.inc = a'.inc ∧
      ∀ (script : List Instr) (a'' : State), (∀ i ∈ script, i.deterministic = true) → runScript script a' = .next a'' →
        ∃ b'' rs, runScript script b' = .next b'' ∧ Delivers a' a'' rs ∧ Delivers b' b'' rs ∧ SameRegs a'' b''

/-- R40: a deterministic seeding command or `SETSTATE` repeated leaves the same architectural state, and `GETSTATE` repeated
gives the same answer. -/
def Obligations.SeedingIsIdempotent : Prop :=
  (∀ (i : Instr) (s t : State), i.needsSeeding = false → i.deterministic = true → exec i s = .next t →
    ∃ u, exec i t = .next u ∧ SameRegs t u) ∧
  ∀ (s t : State) (r : Response), exec .getState s = .next t → Delivers s t [r] →
    SameRegs s t ∧ ∃ u, exec .getState t = .next u ∧ Delivers t u [r]

/-! ### Samplers -/

/-- R90: one transition; the output is that of the value before the step. -/
def Obligations.Next32Result : Prop :=
  (∀ w0 w1 w2 w3, decode ⟨0x00000004, w0, w1, w2, w3⟩ = .ok .next32) ∧
  ∀ s : State,
    (s.seeded = true → exec .next32 s = .next { s with
      state := stepFn s.state s.inc, delivered := s.delivered ++ [⟨.ok, xshrr s.state, 0, 0, 0⟩] }) ∧
    (s.seeded = false → exec .next32 s = .next { s with delivered := s.delivered ++ [⟨.notSeeded, 0, 0, 0, 0⟩] })

/-- R93: one raw draw, the same as `NEXT32`. -/
def Obligations.IntegerRawResult : Prop :=
  (∀ w0 w1 w2 w3, decode ⟨0x00000005, w0, w1, w2, w3⟩ = .ok .integerRaw) ∧
  ∀ s : State, exec .integerRaw s = exec .next32 s ∧
    (s.seeded = true → exec .integerRaw s = .next { s with
      state := stepFn s.state s.inc, delivered := s.delivered ++ [⟨.ok, xshrr s.state, 0, 0, 0⟩] }) ∧
    (s.seeded = false → exec .integerRaw s = .next { s with delivered := s.delivered ++ [⟨.notSeeded, 0, 0, 0, 0⟩] })

/-- R94, R97: once seeded, with `INC` odd (which R19 says of every reachable state), `INTEGER.U` answers by rejection
sampling; before seeding it is `NotSeeded` (R92). That it answers rests on R99. -/
def Obligations.IntegerUResult : Prop :=
  (∀ w0 w1 w2 w3, decode ⟨0x00000015, w0, w1, w2, w3⟩ = .ok (.integerU w0)) ∧
  ∀ (s : State) (m : Word),
    (s.seeded = true → s.IncOdd → ∃ t, exec (.integerU m) s = .next t ∧ IntegerAnswer m s t) ∧
    (s.seeded = false → exec (.integerU m) s = .next { s with delivered := s.delivered ++ [⟨.notSeeded, 0, 0, 0, 0⟩] })

/-- R95: with the high word 0, `INTEGER.S` answers as `INTEGER.U` of the low word; with any other high word it is
`InvalidRange` and draws nothing; before seeding it is `NotSeeded`. -/
def Obligations.IntegerSResult : Prop :=
  (∀ w0 w1 w2 w3, decode ⟨0x00000095, w0, w1, w2, w3⟩ = .ok (.integerS (wideOf w0 w1))) ∧
  ∀ (s : State) (w0 w1 : Word),
    (s.seeded = true → s.IncOdd → w1 = 0 → ∃ t, exec (.integerS (wideOf w0 w1)) s = .next t ∧ IntegerAnswer w0 s t) ∧
    (w1 = 0 → exec (.integerS (wideOf w0 w1)) s = exec (.integerU w0) s) ∧
    (s.seeded = true → w1 ≠ 0 → exec (.integerS (wideOf w0 w1)) s = .next { s with
      delivered := s.delivered ++ [⟨.invalidRange, 0, 0, 0, 0⟩] }) ∧
    (s.seeded = false → exec (.integerS (wideOf w0 w1)) s = .next { s with
      delivered := s.delivered ++ [⟨.notSeeded, 0, 0, 0, 0⟩] })

/-- R99, I11: the model's bound on the rejection loop is exact. `INTEGER.U` is stuck exactly when no candidate is ever
accepted, however long the loop runs; the bound is the model's choice (log 5). -/
def Obligations.StuckExactlyWhenLoopNeverEnds : Prop :=
  ∀ (s : State) (m : Word), s.seeded = true → m ≠ 0 →
    (exec (.integerU m) s = .fault .rejectionLoopStuck ↔
      ∀ n, (outputAt s n).toNat < (2 ^ 32 - m.toNat) % m.toNat)

/-- R96: the forms and bounds of the skew. -/
def Obligations.SkewFormsAndBounds : Prop :=
  ∀ m : Word, m ≠ 0 →
    (skew m).toNat = (2 ^ 32 - m.toNat) % m.toNat ∧ (skew m).toNat = 2 ^ 32 % m.toNat ∧ (skew m).toNat < m.toNat ∧
    (skew m).toNat ≤ 2 ^ 32 - m.toNat ∧ (skew m).toNat < 2 ^ 31 ∧
    ((skew m).toNat = 0 ↔ m.toNat ∣ 2 ^ 32) ∧ ((skew m).toNat = 0 ↔ ∃ k, m.toNat = 2 ^ k) ∧
    m.toNat ∣ 2 ^ 32 - (skew m).toNat

/-- R98: the test of the fast path selects the powers of two, and there the general path gives the same word and the same
state. -/
def Obligations.FastPathEqualsGeneralPath : Prop :=
  ∀ (m : Word) (s : State), m ≠ 0 →
    (m &&& (m - 1) = 0 ↔ ∃ k ≤ 31, m.toNat = 2 ^ k) ∧
    (m &&& (m - 1) = 0 → rangedLoop m loopBound s = some (rangedFast m s)) ∧
    ranged m s = rangedLoop m loopBound s

/-- R100: a ranged answer is below its bound. -/
def Obligations.IntegerStaysBelowBound : Prop :=
  ∀ (s t : State) (m v r1 r2 r3 : Word), m ≠ 0 → Delivers s t [⟨.ok, v, r1, r2, r3⟩] →
    (exec (.integerU m) s = .next t ∨ exec (.integerS (m.setWidth 64)) s = .next t) → v.toNat < m.toNat

/-- R101: two transitions; the first output supplies the high 26 bits of `K`; the pattern and `K` are delivered low halves
first. That the pattern in `R1:R0` is binary64 is a presumption (log 8, the spec's G3); `K` does not rest on it. -/
def Obligations.NumberResult : Prop :=
  (∀ w0 w1 w2 w3, decode ⟨0x00000006, w0, w1, w2, w3⟩ = .ok .number) ∧
  ∀ s : State,
    (s.seeded = true → ∀ (hi lo k : Nat) (d : Wide), hi = (xshrr s.state).toNat % 2 ^ 26 →
      lo = (xshrr (stepFn s.state s.inc)).toNat % 2 ^ 27 → k = hi * 2 ^ 27 + lo → d = binary64 k →
      exec .number s = .next { s with
        state := stepFn (stepFn s.state s.inc) s.inc,
        delivered := s.delivered ++ [⟨.ok, d.extractLsb' 0 32, d.extractLsb' 32 32, BitVec.ofNat 32 k,
          BitVec.ofNat 32 (k / 2 ^ 32)⟩] }) ∧
    (s.seeded = false → exec .number s = .next { s with delivered := s.delivered ++ [⟨.notSeeded, 0, 0, 0, 0⟩] })

/-- R102: the pattern's fields from the highest set bit, the exact value `K / 2^53` of the pattern, the range of the
exponent, and that distinct `K` give distinct patterns. That the format is IEEE 754 binary64, and so the value of a pattern,
is a presumption (log 8, the spec's G3). -/
def Obligations.Binary64IsExact : Prop :=
  binary64 0 = 0 ∧
  (∀ k p : Nat, p ≤ 52 → 2 ^ p ≤ k → k < 2 ^ (p + 1) →
    (binary64 k).toNat = (970 + p) * 2 ^ 52 + k * 2 ^ (52 - p) % 2 ^ 52) ∧
  (∀ k : Nat, 0 < k → k < 2 ^ 53 → ∃ e f, (binary64 k).toNat = e * 2 ^ 52 + f ∧ f < 2 ^ 52 ∧ 970 ≤ e ∧ e ≤ 1022 ∧
    ((2 ^ 52 + f : ℚ) / 2 ^ 52) * 2 ^ ((e : ℤ) - 1023) = (k : ℚ) / 2 ^ 53) ∧
  ∀ j k : Nat, j < 2 ^ 53 → k < 2 ^ 53 → binary64 j = binary64 k → j = k

/-- R101 to R103: the integer of an answer is below 2^53, and every such integer is some pair of outputs' fraction. That
`R1:R0` holds its binary64 pattern is a presumption (log 8, the spec's G3). -/
def Obligations.NumberStaysBelowOne : Prop :=
  (∀ (s t : State) (r : Response), s.seeded = true → exec .number s = .next t → Delivers s t [r] →
    (wideOf r.r2 r.r3).toNat < 2 ^ 53 ∧ wideOf r.r0 r.r1 = binary64 (wideOf r.r2 r.r3).toNat) ∧
  ∀ k < 2 ^ 53, ∃ a b : Word, fraction53 a b = k

/-! ### Faults, frames, determinism -/

/-- R108: the status codes. -/
def Obligations.StatusCodes : Prop :=
  statusCode .ok = 0 ∧ statusCode .invalidState = 1 ∧ statusCode .invalidRange = 2 ∧ statusCode .illegalCommand = 3 ∧
  statusCode .notSeeded = 4 ∧ ∀ st, (statusCode st).toNat ≤ 4

/-- R112: the six commands that need a seeding raise `NotSeeded` exactly before one; the others never do. `SEEDED` is set by
exactly the others, when they complete `OK` (R22); only a reset clears it. -/
def Obligations.NotSeededBeforeSeeding : Prop :=
  ∀ (i : Instr) (s : State),
    (i.needsSeeding = true → s.seeded = false →
      exec i s = .next { s with delivered := s.delivered ++ [⟨.notSeeded, 0, 0, 0, 0⟩] }) ∧
    ∀ (t : State) (r : Response), exec i s = .next t → Delivers s t [r] →
      (r.st = .notSeeded → i.needsSeeding = true ∧ s.seeded = false) ∧
      (t.seeded = true ↔ s.seeded = true ∨ (i.needsSeeding = false ∧ r.st = .ok))

/-- R113: the statuses a command can end in. -/
def Obligations.CommandsEndInTheirStatuses : Prop :=
  ∀ (i : Instr) (s t : State) (r : Response), exec i s = .next t → Delivers s t [r] → i.mayEnd r.st = true

/-- R111: a word that decodes to illegal gets `IllegalCommand` and has no effect. -/
def Obligations.IllegalCommandHasNoEffect : Prop :=
  ∀ (s : State) (c : Command) (rest : List Input) (e : Illegal), s.pending = .command c :: rest → decode c = .error e →
    step s = .next { s with pending := rest, delivered := s.delivered ++ [⟨.illegalCommand, 0, 0, 0, 0⟩] }

/-- R114: the first condition in the order illegal, not seeded, operand is the one reported. -/
def Obligations.FaultPriority : Prop :=
  (∀ (s : State) (c : Command) (rest : List Input) (e : Illegal), s.pending = .command c :: rest → decode c = .error e →
    ∃ t, step s = .next t ∧ Delivers s t [⟨.illegalCommand, 0, 0, 0, 0⟩]) ∧
  (∀ (s : State) (max : Wide), s.seeded = false → (signedWide max < 0 ∨ signedWide max > 0xFFFFFFFF) →
    ∃ t, exec (.integerS max) s = .next t ∧ Delivers s t [⟨.notSeeded, 0, 0, 0, 0⟩]) ∧
  ∀ (s : State) (n : Nat) (e0 e1 e2 e3 : Word), n ≠ 4 →
    ∃ t, exec (.setState n e0 e1 e2 e3) s = .next t ∧ Delivers s t [⟨.invalidState, 0, 0, 0, 0⟩]

/-- R115: a command that ends in a fault, decoded or illegal, changes nothing, draws nothing, and answers zero data words;
the step that took it leaves the host's other inputs and nothing else changed. -/
def Obligations.FaultChangesNothing : Prop :=
  (∀ (i : Instr) (s t : State) (r : Response), exec i s = .next t → Delivers s t [r] → r.st ≠ .ok →
    t = { s with delivered := s.delivered ++ [⟨r.st, 0, 0, 0, 0⟩] }) ∧
  ∀ (s t : State) (c : Command) (rest : List Input) (r : Response), s.pending = .command c :: rest → step s = .next t →
    Delivers s t [r] → r.st ≠ .ok →
    t = { s with pending := rest, delivered := s.delivered ++ [⟨r.st, 0, 0, 0, 0⟩] }

/-- R116: after a fault response the next input is taken exactly as if the faulting command had never been sent. Where that
input is a `SEED.RND`, both steps are compared for the same entropy answers, the model's choice (log 4). Where it is a reset
event, that both steps leave the same unspecified `STATE` is the model's choice too (log 2); R116 speaks of commands only. -/
def Obligations.NextCommandIgnoresEarlierFault : Prop :=
  ∀ (s t t' : State) (c : Command) (rest : List Input) (r : Response), s.pending = .command c :: rest →
    step s = .next t → Delivers s t [r] → r.st ≠ .ok → step t = .next t' →
    ∃ u rs, step { s with pending := rest } = .next u ∧ SameRegs t' u ∧ t'.pending = u.pending ∧
      t'.entropyDraws = u.entropyDraws ∧ t'.resets = u.resets ∧ Delivers t t' rs ∧ Delivers s u rs

/-- R91: commands other than `SEED.RND` are functions of the architectural state: two instances with equal `STATE`, `INC`
and `SEEDED` answer every script of them alike and end alike. -/
def Obligations.EqualStatesAnswerScriptsAlike : Prop :=
  ∀ (script : List Instr) (a b a' : State), (∀ i ∈ script, i.deterministic = true) → SameRegs a b →
    runScript script a = .next a' →
    ∃ b' rs, runScript script b = .next b' ∧ SameRegs a' b' ∧ Delivers a a' rs ∧ Delivers b b' rs

/-- The frame of every command, from the access table R30: what it does not name is unchanged. -/
def Obligations.FrameOfEveryCommand : Prop :=
  ∀ (i : Instr) (s t : State), exec i s = .next t →
    t.pending = s.pending ∧ t.resets = s.resets ∧ (∃ r, Delivers s t [r]) ∧
    t.entropyDraws = s.entropyDraws + (if i.deterministic then 0 else 2) ∧
    (i.writesInc = false → t.inc = s.inc) ∧ (i = .getState → t.state = s.state) ∧
    (s.seeded = true → t.seeded = true) ∧ (i.needsSeeding = true → t.seeded = s.seeded)

/-! ### Encoding -/

/-- Decoding an encoded well-formed instruction gives it back, with every operand at every value (R47, R48, R51). -/
def Obligations.DecodeAfterEncode : Prop :=
  ∀ i : Instr, i.wellFormed = true → decode (encode i) = .ok i

/-- What decodes is well-formed and has one command word: that of its encoding (R51, R52). -/
def Obligations.EncodeAfterDecode : Prop :=
  ∀ (c : Command) (i : Instr), decode c = .ok i → i.wellFormed = true ∧ (encode i).cw = c.cw

/-- R52, R53: the words that decode, one by one, are the twenty the table defines; every other word is illegal. -/
def Obligations.OnlyTableWordsDecode : Prop :=
  ∀ c : Command, (∃ i, decode c = .ok i) ↔
    c.cw ∈ ([0x01, 0x11, 0x21, 0x41, 0x91, 0xA1] ++ [0x02, 0x12, 0x22, 0x32, 0x42, 0x52, 0x62, 0x72] ++
      [0x03, 0x04, 0x05, 0x15, 0x95, 0x06] : List Word)

/-- R49: the operand words a command does not use have no effect on the state, the response or the fault raised. `used` is
the number of words its shape takes (none for a `SETSTATE` that faults). For `SEED.RND` both steps are compared for the same
entropy answers, the model's choice (log 4). -/
def Obligations.UnusedOperandWordsAreIgnored : Prop :=
  ∀ (s : State) (rest : List Input) (c d : Command) (used : Nat), c.cw = d.cw →
    used = (if fieldOp c.cw = 2 ∧ fieldN c.cw ≠ 4 then 0 else if fieldT c.cw = 0 then fieldN c.cw else 2 * fieldN c.cw) →
    (0 < used → c.w0 = d.w0) → (1 < used → c.w1 = d.w1) → (2 < used → c.w2 = d.w2) → (3 < used → c.w3 = d.w3) →
    step { s with pending := .command c :: rest } = step { s with pending := .command d :: rest }

/-- A few words written out from R51, R53: what they decode to, or why they do not. -/
def Obligations.DecodeSampleWords : Prop :=
  decode ⟨0b00000000000000000000000001000001, 1, 2, 3, 4⟩ = .ok (.seed4 1 2 3 4) ∧
  decode ⟨0b00000000000000000000000010100001, 1, 2, 3, 4⟩ = .ok (.seedWI 0x0000000200000001 0x0000000400000003) ∧
  decode ⟨0b00000000000000000000000010010101, 0xFFFFFFFB, 0xFFFFFFFF, 3, 4⟩ = .ok (.integerS 0xFFFFFFFFFFFFFFFB) ∧
  decode ⟨0b00000000000000000000000001110010, 1, 2, 3, 4⟩ = .ok (.setState 7 1 2 3 4) ∧
  decode ⟨0b00000000000000000000000000000110, 1, 2, 3, 4⟩ = .ok .number ∧
  decode ⟨0b00000000000000000000000000110001, 1, 2, 3, 4⟩ = .error .undefinedShape ∧
  decode ⟨0b00000000000000000000000000000000, 1, 2, 3, 4⟩ = .error .undefinedOp ∧
  decode ⟨0b10000000000000000000000000000100, 1, 2, 3, 4⟩ = .error .reservedBit

/-- R55: the command each line of the table gives, its literals in range and the words it does not use 0; a `SETSTATE` list of
more than seven elements gives none (I13). Whatever a line assembles to decodes to a well-formed instruction of which it is
the encoding. That literals too wide for their operand give no command is the model's choice (log 7) and is not stated. -/
def Obligations.AssembledLinesDecode : Prop :=
  (ScriptLine.seedRnd.assemble = some ⟨0x01, 0, 0, 0, 0⟩ ∧
   ScriptLine.getState.assemble = some ⟨0x03, 0, 0, 0, 0⟩ ∧
   ScriptLine.next32.assemble = some ⟨0x04, 0, 0, 0, 0⟩ ∧
   ScriptLine.integerRaw.assemble = some ⟨0x05, 0, 0, 0, 0⟩ ∧
   ScriptLine.number.assemble = some ⟨0x06, 0, 0, 0, 0⟩) ∧
  (∀ lo < 2 ^ 32, (ScriptLine.seed1 lo).assemble = some ⟨0x11, BitVec.ofNat 32 lo, 0, 0, 0⟩) ∧
  (∀ lo < 2 ^ 32, ∀ hi < 2 ^ 32,
    (ScriptLine.seed2 lo hi).assemble = some ⟨0x21, BitVec.ofNat 32 lo, BitVec.ofNat 32 hi, 0, 0⟩) ∧
  (∀ lo < 2 ^ 32, ∀ hi < 2 ^ 32, ∀ incLo < 2 ^ 32, ∀ incHi < 2 ^ 32,
    (ScriptLine.seed4 lo hi incLo incHi).assemble =
      some ⟨0x41, BitVec.ofNat 32 lo, BitVec.ofNat 32 hi, BitVec.ofNat 32 incLo, BitVec.ofNat 32 incHi⟩) ∧
  (∀ seed < 2 ^ 64, (ScriptLine.seedW seed).assemble =
    some ⟨0x91, BitVec.ofNat 32 (seed % 2 ^ 32), BitVec.ofNat 32 (seed / 2 ^ 32), 0, 0⟩) ∧
  (∀ seed < 2 ^ 64, ∀ inc < 2 ^ 64, (ScriptLine.seedWI seed inc).assemble =
    some ⟨0xA1, BitVec.ofNat 32 (seed % 2 ^ 32), BitVec.ofNat 32 (seed / 2 ^ 32), BitVec.ofNat 32 (inc % 2 ^ 32),
      BitVec.ofNat 32 (inc / 2 ^ 32)⟩) ∧
  (∀ elems : List Nat, elems.length ≤ 7 → (∀ e ∈ elems.take 4, e < 2 ^ 32) →
    (ScriptLine.setState elems).assemble =
      some ⟨BitVec.ofNat 32 (0x02 + 16 * elems.length), BitVec.ofNat 32 (elems.getD 0 0), BitVec.ofNat 32 (elems.getD 1 0),
        BitVec.ofNat 32 (elems.getD 2 0), BitVec.ofNat 32 (elems.getD 3 0)⟩) ∧
  (∀ elems : List Nat, 7 < elems.length → (ScriptLine.setState elems).assemble = none) ∧
  (∀ max < 2 ^ 32, (ScriptLine.integerU max).assemble = some ⟨0x15, BitVec.ofNat 32 max, 0, 0, 0⟩) ∧
  (∀ (max : Int) (u : Nat), -2 ^ 63 ≤ max → max < 2 ^ 64 → u = (max % 2 ^ 64).toNat →
    (ScriptLine.integerS max).assemble =
      some ⟨0x95, BitVec.ofNat 32 (u % 2 ^ 32), BitVec.ofNat 32 (u / 2 ^ 32), 0, 0⟩) ∧
  ∀ (line : ScriptLine) (c : Command), line.assemble = some c →
    ∃ i, decode c = .ok i ∧ i.wellFormed = true ∧ encode i = c

/-- R56: `integer(m)` is `INTEGER.U m` for a word and `INTEGER.S m` for every other signed 64-bit value, whose bits read
back as `m`. -/
def Obligations.PseudoIntegerPicksForm : Prop :=
  ∀ m : Int,
    (0 ≤ m → m ≤ 0xFFFFFFFF → (PseudoCommand.integer (some m)).expand = some (.integerU m.toNat) ∧
      (ScriptLine.integerU m.toNat).assemble = some (encode (.integerU (BitVec.ofInt 32 m)))) ∧
    ((-2 ^ 63 ≤ m ∧ m < 0) ∨ (0xFFFFFFFF < m ∧ m < 2 ^ 63) →
      (PseudoCommand.integer (some m)).expand = some (.integerS m) ∧
      ∃ w : Wide, (ScriptLine.integerS m).assemble = some (encode (.integerS w)) ∧ signedWide w = m)
end

