-- ==== Sys2Proof/Laws/Decode.lean ====
section
/-! SUPPORT. The small lemmas of the encoding: halves of a wide word, the fields of a command word, and what a decoded
command's word can be. -/

namespace Sys2Proof

namespace Machine

theorem lo32_toNat (v : Wide) : (lo32 v).toNat = v.toNat % 2 ^ 32 := by simp [lo32]

theorem hi32_toNat (v : Wide) : (hi32 v).toNat = v.toNat / 2 ^ 32 := by
  have := v.isLt
  simp [hi32, Nat.shiftRight_eq_div_pow]
  omega

theorem wideOf_toNat (lo hi : Word) : (wideOf lo hi).toNat = 2 ^ 32 * hi.toNat + lo.toNat := by
  have := lo.isLt
  simp only [wideOf, BitVec.toNat_append, Nat.shiftLeft_eq]
  rw [Nat.mul_comm, ← Nat.two_pow_add_eq_or_of_lt lo.isLt]

@[simp] theorem lo32_wideOf (lo hi : Word) : lo32 (wideOf lo hi) = lo := by
  apply BitVec.eq_of_toNat_eq
  have := lo.isLt
  rw [lo32_toNat, wideOf_toNat]
  omega

@[simp] theorem hi32_wideOf (lo hi : Word) : hi32 (wideOf lo hi) = hi := by
  apply BitVec.eq_of_toNat_eq
  have := lo.isLt
  rw [hi32_toNat, wideOf_toNat]
  omega

@[simp] theorem wideOf_halves (v : Wide) : wideOf (lo32 v) (hi32 v) = v := by
  apply BitVec.eq_of_toNat_eq
  rw [wideOf_toNat, lo32_toNat, hi32_toNat]
  omega

end Machine

theorem fieldOp_eq (cw : Word) : fieldOp cw = cw.toNat % 16 := by simp [fieldOp]

theorem fieldN_eq (cw : Word) : fieldN cw = cw.toNat / 16 % 8 := by simp [fieldN, Nat.shiftRight_eq_div_pow]

theorem fieldT_eq (cw : Word) : fieldT cw = cw.toNat / 128 % 2 := by simp [fieldT, Nat.shiftRight_eq_div_pow]

theorem fieldRsv_eq (cw : Word) : fieldRsv cw = cw.toNat / 256 := by
  have := cw.isLt
  simp [fieldRsv, Nat.shiftRight_eq_div_pow]
  omega

/-- The fields of a word put together from fields in range are those fields, and nothing is reserved (R51). -/
theorem commandWord_fields {op t n : Nat} (ho : op < 16) (ht : t < 2) (hn : n < 8) :
    fieldOp (commandWord op t n) = op ∧ fieldT (commandWord op t n) = t ∧ fieldN (commandWord op t n) = n ∧
      fieldRsv (commandWord op t n) = 0 := by
  simp only [fieldOp_eq, fieldT_eq, fieldN_eq, fieldRsv_eq, commandWord, BitVec.toNat_ofNat]
  omega

/-- A word with nothing reserved is put together from its fields (R47). -/
theorem commandWord_of_fields {cw : Word} (h : fieldRsv cw = 0) :
    commandWord (fieldOp cw) (fieldT cw) (fieldN cw) = cw := by
  rw [fieldRsv_eq] at h
  apply BitVec.eq_of_toNat_eq
  simp only [fieldOp_eq, fieldT_eq, fieldN_eq, commandWord, BitVec.toNat_ofNat]
  omega

/-- The list length `N` of a command word is at most 7 (R47). -/
theorem fieldN_le (cw : Word) : fieldN cw ≤ 7 := by
  rw [fieldN_eq]
  omega

end Sys2Proof
end

