-- ==== Sys2Proof/Laws/State.lean ====
section
/-! SUPPORT. One lemma per field of State and per state operation of Machine/Flags.lean and Machine/Ops.lean, each true by
rfl: no later proof unfolds a record update. -/

namespace Sys2Proof.Machine

variable (s : State)

@[simp] theorem State.writeState_state (v : Wide) : (s.writeState v).state = v := rfl
@[simp] theorem State.writeState_inc (v : Wide) : (s.writeState v).inc = s.inc := rfl
@[simp] theorem State.writeState_seeded (v : Wide) : (s.writeState v).seeded = s.seeded := rfl
@[simp] theorem State.writeState_pending (v : Wide) : (s.writeState v).pending = s.pending := rfl
@[simp] theorem State.writeState_delivered (v : Wide) : (s.writeState v).delivered = s.delivered := rfl
@[simp] theorem State.writeState_entropyDraws (v : Wide) : (s.writeState v).entropyDraws = s.entropyDraws := rfl
@[simp] theorem State.writeState_resets (v : Wide) : (s.writeState v).resets = s.resets := rfl

@[simp] theorem State.writeInc_state (v : Wide) : (s.writeInc v).state = s.state := rfl
@[simp] theorem State.writeInc_inc (v : Wide) : (s.writeInc v).inc = v := rfl
@[simp] theorem State.writeInc_seeded (v : Wide) : (s.writeInc v).seeded = s.seeded := rfl
@[simp] theorem State.writeInc_pending (v : Wide) : (s.writeInc v).pending = s.pending := rfl
@[simp] theorem State.writeInc_delivered (v : Wide) : (s.writeInc v).delivered = s.delivered := rfl
@[simp] theorem State.writeInc_entropyDraws (v : Wide) : (s.writeInc v).entropyDraws = s.entropyDraws := rfl
@[simp] theorem State.writeInc_resets (v : Wide) : (s.writeInc v).resets = s.resets := rfl

@[simp] theorem State.deliver_state (r : Response) : (s.deliver r).state = s.state := rfl
@[simp] theorem State.deliver_inc (r : Response) : (s.deliver r).inc = s.inc := rfl
@[simp] theorem State.deliver_seeded (r : Response) : (s.deliver r).seeded = s.seeded := rfl
@[simp] theorem State.deliver_pending (r : Response) : (s.deliver r).pending = s.pending := rfl
@[simp] theorem State.deliver_delivered (r : Response) : (s.deliver r).delivered = s.delivered ++ [r] := rfl
@[simp] theorem State.deliver_entropyDraws (r : Response) : (s.deliver r).entropyDraws = s.entropyDraws := rfl
@[simp] theorem State.deliver_resets (r : Response) : (s.deliver r).resets = s.resets := rfl

@[simp] theorem State.markSeeded_state : s.markSeeded.state = s.state := rfl
@[simp] theorem State.markSeeded_inc : s.markSeeded.inc = s.inc := rfl
@[simp] theorem State.markSeeded_seeded : s.markSeeded.seeded = true := rfl
@[simp] theorem State.markSeeded_pending : s.markSeeded.pending = s.pending := rfl
@[simp] theorem State.markSeeded_delivered : s.markSeeded.delivered = s.delivered := rfl
@[simp] theorem State.markSeeded_entropyDraws : s.markSeeded.entropyDraws = s.entropyDraws := rfl
@[simp] theorem State.markSeeded_resets : s.markSeeded.resets = s.resets := rfl

@[simp] theorem State.clearSeeded_state : s.clearSeeded.state = s.state := rfl
@[simp] theorem State.clearSeeded_inc : s.clearSeeded.inc = s.inc := rfl
@[simp] theorem State.clearSeeded_seeded : s.clearSeeded.seeded = false := rfl
@[simp] theorem State.clearSeeded_pending : s.clearSeeded.pending = s.pending := rfl
@[simp] theorem State.clearSeeded_delivered : s.clearSeeded.delivered = s.delivered := rfl
@[simp] theorem State.clearSeeded_entropyDraws : s.clearSeeded.entropyDraws = s.entropyDraws := rfl
@[simp] theorem State.clearSeeded_resets : s.clearSeeded.resets = s.resets := rfl

@[simp] theorem State.countReset_state : s.countReset.state = s.state := rfl
@[simp] theorem State.countReset_inc : s.countReset.inc = s.inc := rfl
@[simp] theorem State.countReset_seeded : s.countReset.seeded = s.seeded := rfl
@[simp] theorem State.countReset_pending : s.countReset.pending = s.pending := rfl
@[simp] theorem State.countReset_delivered : s.countReset.delivered = s.delivered := rfl
@[simp] theorem State.countReset_entropyDraws : s.countReset.entropyDraws = s.entropyDraws := rfl
@[simp] theorem State.countReset_resets : s.countReset.resets = s.resets + 1 := rfl

@[simp] theorem State.advance_state : s.advance.state = stepFn s.state s.inc := rfl
@[simp] theorem State.advance_inc : s.advance.inc = s.inc := rfl
@[simp] theorem State.advance_seeded : s.advance.seeded = s.seeded := rfl
@[simp] theorem State.advance_pending : s.advance.pending = s.pending := rfl
@[simp] theorem State.advance_delivered : s.advance.delivered = s.delivered := rfl
@[simp] theorem State.advance_entropyDraws : s.advance.entropyDraws = s.entropyDraws := rfl
@[simp] theorem State.advance_resets : s.advance.resets = s.resets := rfl

@[simp] theorem State.send_state (x : Input) : (s.send x).state = s.state := rfl
@[simp] theorem State.send_inc (x : Input) : (s.send x).inc = s.inc := rfl
@[simp] theorem State.send_seeded (x : Input) : (s.send x).seeded = s.seeded := rfl
@[simp] theorem State.send_pending (x : Input) : (s.send x).pending = s.pending ++ [x] := rfl
@[simp] theorem State.send_delivered (x : Input) : (s.send x).delivered = s.delivered := rfl
@[simp] theorem State.send_entropyDraws (x : Input) : (s.send x).entropyDraws = s.entropyDraws := rfl
@[simp] theorem State.send_resets (x : Input) : (s.send x).resets = s.resets := rfl

@[simp] theorem State.applyReset_state : s.applyReset.state = Config.unspecifiedState (s.resets + 1) := rfl
@[simp] theorem State.applyReset_inc : s.applyReset.inc = Config.defaultInc := rfl
@[simp] theorem State.applyReset_seeded : s.applyReset.seeded = false := rfl
@[simp] theorem State.applyReset_pending : s.applyReset.pending = s.pending := rfl
@[simp] theorem State.applyReset_delivered : s.applyReset.delivered = s.delivered := rfl
@[simp] theorem State.applyReset_entropyDraws : s.applyReset.entropyDraws = s.entropyDraws := rfl
@[simp] theorem State.applyReset_resets : s.applyReset.resets = s.resets + 1 := rfl

end Sys2Proof.Machine
end

