-- ==== Sys2Proof/Laws/Ops.lean ====
section
/-! SUPPORT. What each shared operation can do, said once: the lifecycle check, the response, the seeding procedure, accepting
an input, and the sequence of core transitions. -/

namespace Sys2Proof

/-- Every value of the free bits makes the default increment odd (R9). -/
theorem Config.defaultInc_odd : Config.defaultInc.getLsbD 0 = true := by
  rw [Config.defaultInc, BitVec.getLsbD_append]
  rfl

namespace Machine

theorem whenSeeded_of_seeded {s : State} (h : s.seeded = true) (k : Result) : whenSeeded s k = k := by
  simp [whenSeeded, h]

theorem whenSeeded_of_unseeded {s : State} (h : s.seeded = false) (k : Result) :
    whenSeeded s k = raise .notSeeded s := by
  simp [whenSeeded, h]

/-- The transformed increment is odd whatever the host supplied (R64). -/
theorem incXform_odd (u : Wide) : (incXform u).getLsbD 0 = true := by simp [incXform]

/-- Forcing the low bit makes a restored increment odd (R77). -/
theorem forced_odd (v : Wide) : (v ||| 1).getLsbD 0 = true := by simp

/-- The seeding procedure in closed form (R68): only `STATE` and `SEEDED` change. -/
theorem seedCore_eq (seed : Wide) (s : State) :
    seedCore seed s = { s with state := stepFn (s.inc + seed) s.inc, seeded := true } := by
  simp [seedCore, State.writeState, State.markSeeded, stepFn, add64, mul64]

theorem drawEntropy_fst (s : State) : (drawEntropy s).1 = Config.entropyWord s.entropyDraws := rfl

theorem drawEntropy_snd (s : State) : (drawEntropy s).2 = { s with entropyDraws := s.entropyDraws + 1 } := rfl

theorem draw_fst (s : State) : (draw s).1 = outputAt s 0 := rfl

theorem draw_snd (s : State) : (draw s).2 = s.advance := rfl

@[simp] theorem accept_nil {s : State} (h : s.pending = []) : accept s = none := by simp [accept, h]

@[simp] theorem accept_cons {s : State} {x : Input} {rest : List Input} (h : s.pending = x :: rest) :
    accept s = some (x, { s with pending := rest }) := by simp [accept, h]

@[simp] theorem stateAfter_zero (s : State) : stateAfter s 0 = s.state := rfl

/-- The transition number `n + 1` of a state is the transition number `n` of the state after one. -/
@[simp] theorem stateAfter_advance (s : State) (n : Nat) : stateAfter s.advance n = stateAfter s (n + 1) := rfl

theorem stateAfter_succ (s : State) (n : Nat) : stateAfter s (n + 1) = stepFn (stateAfter s n) s.inc := by
  simp [stateAfter, Function.iterate_succ_apply']

@[simp] theorem outputAt_advance (s : State) (n : Nat) : outputAt s.advance n = outputAt s (n + 1) := rfl

/-- The sequence of transitions depends on `STATE` and `INC` alone (R28). -/
theorem stateAfter_congr {a b : State} (hs : a.state = b.state) (hi : a.inc = b.inc) (n : Nat) :
    stateAfter a n = stateAfter b n := by
  simp [stateAfter, hs, hi]

theorem outputAt_congr {a b : State} (hs : a.state = b.state) (hi : a.inc = b.inc) (n : Nat) :
    outputAt a n = outputAt b n := by
  simp [outputAt, stateAfter_congr hs hi]

end Machine

end Sys2Proof
end

