-- ==== Sys2Proof/Laws/PerInstr.lean ====
section
/-! SUPPORT. Statements about every instruction as syntax, one lemma per constructor. -/

namespace Sys2Proof.Laws.DefinedWord

/-- The command word of a well-formed instruction has no reserved bit set and a defined opcode (R47, R51). -/
def Statement (i : Instr) : Prop :=
  i.wellFormed = true → fieldRsv (encode i).cw = 0 ∧ 1 ≤ fieldOp (encode i).cw ∧ fieldOp (encode i).cw ≤ 6

/-- The shared step: a word put together from a defined opcode. -/
theorem of_fields {op t n : Nat} (ho : 1 ≤ op ∧ op ≤ 6) (ht : t < 2) (hn : n < 8) :
    fieldRsv (commandWord op t n) = 0 ∧ 1 ≤ fieldOp (commandWord op t n) ∧ fieldOp (commandWord op t n) ≤ 6 := by
  obtain ⟨h1, -, -, h4⟩ := commandWord_fields (op := op) (by omega) ht hn
  omega

theorem seedRnd : Statement .seedRnd := fun _ => of_fields (by omega) (by omega) (by omega)
theorem seed1 (lo : Word) : Statement (.seed1 lo) := fun _ => of_fields (by omega) (by omega) (by omega)
theorem seed2 (lo hi : Word) : Statement (.seed2 lo hi) := fun _ => of_fields (by omega) (by omega) (by omega)
theorem seed4 (lo hi incLo incHi : Word) : Statement (.seed4 lo hi incLo incHi) :=
  fun _ => of_fields (by omega) (by omega) (by omega)
theorem seedW (seed : Wide) : Statement (.seedW seed) := fun _ => of_fields (by omega) (by omega) (by omega)
theorem seedWI (seed inc : Wide) : Statement (.seedWI seed inc) := fun _ => of_fields (by omega) (by omega) (by omega)
theorem setState (len : Nat) (e0 e1 e2 e3 : Word) : Statement (.setState len e0 e1 e2 e3) := fun h =>
  of_fields (by omega) (by omega) (by have : len ≤ 7 := of_decide_eq_true h; omega)
theorem getState : Statement .getState := fun _ => of_fields (by omega) (by omega) (by omega)
theorem next32 : Statement .next32 := fun _ => of_fields (by omega) (by omega) (by omega)
theorem integerRaw : Statement .integerRaw := fun _ => of_fields (by omega) (by omega) (by omega)
theorem integerU (max : Word) : Statement (.integerU max) := fun _ => of_fields (by omega) (by omega) (by omega)
theorem integerS (max : Wide) : Statement (.integerS max) := fun _ => of_fields (by omega) (by omega) (by omega)
theorem number : Statement .number := fun _ => of_fields (by omega) (by omega) (by omega)

end Sys2Proof.Laws.DefinedWord
end

