-- ==== Sys2Proof/Laws/Sampling.lean ====
section
/-! SUPPORT. What the rejection loop and the `INTEGER_PROC` procedure can do. -/

namespace Sys2Proof.Machine

/-- Candidate number `n` is the first that is not below the skew (R97). -/
abbrev FirstAccepted (m : Word) (s : State) (n : Nat) : Prop :=
  (∀ k < n, (outputAt s k).toNat < (skew m).toNat) ∧ (skew m).toNat ≤ (outputAt s n).toNat

/-- An accepted candidate ends the loop. -/
theorem rangedLoop_accept {m : Word} {s : State} (h : (skew m).toNat ≤ (outputAt s 0).toNat) (fuel : Nat) :
    rangedLoop m (fuel + 1) s = some (outputAt s 0 % m, s.advance) := if_pos h

/-- A rejected candidate advances the state and the loop repeats. -/
theorem rangedLoop_reject {m : Word} {s : State} (h : ¬(skew m).toNat ≤ (outputAt s 0).toNat) (fuel : Nat) :
    rangedLoop m (fuel + 1) s = rangedLoop m fuel s.advance := if_neg h

/-- The loop answers exactly when some candidate within the fuel is accepted; it answers the first such one, reduced, and
the state after its transition (R97). -/
theorem rangedLoop_eq_some (m : Word) (fuel : Nat) (s : State) (v : Word) (t : State) :
    rangedLoop m fuel s = some (v, t) ↔
      ∃ n < fuel, FirstAccepted m s n ∧ v = outputAt s n % m ∧ t = { s with state := stateAfter s (n + 1) } := by
  induction fuel generalizing s with
  | zero => simp [rangedLoop]
  | succ fuel ih =>
    by_cases hle : (skew m).toNat ≤ (outputAt s 0).toNat
    · rw [rangedLoop_accept hle]
      constructor
      · intro h
        simp only [Option.some.injEq, Prod.mk.injEq] at h
        obtain ⟨rfl, rfl⟩ := h
        exact ⟨0, by omega, ⟨by simp, hle⟩, rfl, rfl⟩
      · rintro ⟨n, -, ⟨hlt, -⟩, rfl, rfl⟩
        cases n with
        | zero => rfl
        | succ n => exact absurd (hlt 0 (by omega)) (by omega)
    · rw [rangedLoop_reject hle, ih]
      constructor
      · rintro ⟨n, hn, ⟨hlt, hacc⟩, rfl, rfl⟩
        refine ⟨n + 1, by omega, ⟨fun k hk => ?_, hacc⟩, rfl, rfl⟩
        cases k with
        | zero => omega
        | succ k => exact hlt k (by omega)
      · rintro ⟨n, hn, ⟨hlt, hacc⟩, rfl, rfl⟩
        cases n with
        | zero => exact absurd hacc hle
        | succ n => exact ⟨n, by omega, ⟨fun k hk => hlt (k + 1) (by omega), hacc⟩, rfl, rfl⟩

/-- The loop gives up exactly when every candidate within the fuel is below the skew. -/
theorem rangedLoop_eq_none (m : Word) (fuel : Nat) (s : State) :
    rangedLoop m fuel s = none ↔ ∀ n < fuel, (outputAt s n).toNat < (skew m).toNat := by
  induction fuel generalizing s with
  | zero => simp [rangedLoop]
  | succ fuel ih =>
    by_cases hle : (skew m).toNat ≤ (outputAt s 0).toNat
    · rw [rangedLoop_accept hle]
      simpa using ⟨0, by omega, hle⟩
    · rw [rangedLoop_reject hle, ih]
      constructor
      · intro h n hn
        cases n with
        | zero => omega
        | succ n => exact h n (by omega)
      · intro h n hn
        exact h (n + 1) (by omega)

/-- The skew of a non-zero bound in the spec's own arithmetic (R96). -/
theorem skew_toNat {m : Word} (h : m ≠ 0) : (skew m).toNat = (2 ^ 32 - m.toNat) % m.toNat := by
  have : m.toNat ≠ 0 := by simpa [BitVec.toNat_eq] using h
  have := m.isLt
  simp only [skew, BitVec.toNat_umod, BitVec.toNat_sub]
  congr 1
  simp only [BitVec.ofNat_eq_ofNat, BitVec.toNat_ofNat]
  omega

/-- What `INTEGER_PROC` can do (R92): a fault with no effect, some transitions with an `OK` response, or never answering. -/
theorem integerProc_cases (m : Int) (s : State) :
    (s.seeded = false ∧ integerProc m s = raise .notSeeded s) ∨
    (s.seeded = true ∧ (m < 0 ∨ m > 0xFFFFFFFF) ∧ integerProc m s = raise .invalidRange s) ∨
    (s.seeded = true ∧ ∃ n v t, SteppedWith s t n ⟨.ok, v, 0, 0, 0⟩ ∧ integerProc m s = .next t) ∨
    (s.seeded = true ∧ integerProc m s = .fault .rejectionLoopStuck ∧
      ∀ n < loopBound, (outputAt s n).toNat < (skew (BitVec.ofInt 32 m)).toNat) := by
  by_cases hs : s.seeded = true
  · right
    simp only [integerProc, whenSeeded_of_seeded hs]
    by_cases hneg : m < 0
    · exact .inl ⟨hs, .inl hneg, if_pos hneg⟩
    by_cases hbig : m > 0xFFFFFFFF
    · exact .inl ⟨hs, .inr hbig, by rw [if_neg hneg, if_pos hbig]⟩
    right
    rw [if_neg hneg, if_neg hbig]
    by_cases hm : m = 0
    · exact .inl ⟨hs, 1, outputAt s 0, _, rfl, by rw [if_pos hm]; rfl⟩
    rw [if_neg hm]
    by_cases hpow : BitVec.ofInt 32 m &&& (BitVec.ofInt 32 m - 1) = 0
    · exact .inl ⟨hs, 1, outputAt s 0 &&& (BitVec.ofInt 32 m - 1), _, rfl, by
        simp only [respondRanged, ranged, if_pos hpow]; rfl⟩
    cases hl : rangedLoop (BitVec.ofInt 32 m) loopBound s with
    | none =>
      exact .inr ⟨hs, by simp only [respondRanged, ranged, if_neg hpow, hl], (rangedLoop_eq_none _ _ _).1 hl⟩
    | some vt =>
      obtain ⟨v, t⟩ := vt
      obtain ⟨n, -, -, rfl, rfl⟩ := (rangedLoop_eq_some _ _ _ _ _).1 hl
      exact .inl ⟨hs, n + 1, outputAt s n % BitVec.ofInt 32 m, _, rfl, by
        simp only [respondRanged, ranged, if_neg hpow, hl]; rfl⟩
  · have hs : s.seeded = false := by simpa using hs
    exact .inl ⟨hs, whenSeeded_of_unseeded hs _⟩

/-- `INTEGER_PROC` of a word, once seeded: the raw path for 0, else the ranged path (R92, R94). -/
theorem integerProc_word (m : Word) {s : State} (hs : s.seeded = true) :
    integerProc m.toNat s = if m = 0 then respondDraw s else respondRanged m s := by
  have hlt := m.isLt
  simp only [integerProc, whenSeeded_of_seeded hs]
  rw [if_neg (by omega), if_neg (by omega)]
  simp [BitVec.toNat_eq]

/-- The ranged path is stuck when its general path is and the fast path does not apply (R99). -/
theorem respondRanged_stuck {m : Word} {s : State} (hpow : m &&& (m - 1) ≠ 0) (hloop : rangedLoop m loopBound s = none) :
    respondRanged m s = .fault .rejectionLoopStuck := by
  simp only [respondRanged, ranged, if_neg hpow, hloop]

end Sys2Proof.Machine
end

