-- ==== Sys2Proof/Laws/Step.lean ====
section
/-! SUPPORT. What one step can do, and that a response list determines its last response. -/

namespace Sys2Proof.Machine

/-- What a step that answers a next state has done: nothing was pending; or a reset event was taken; or a command was
answered `IllegalCommand`; or a decoded command was executed. -/
theorem step_cases {s t : State} (h : step s = .next t) :
    (s.pending = [] ∧ t = s) ∨
    (∃ rest, s.pending = .reset :: rest ∧ t = ({ s with pending := rest } : State).applyReset) ∨
    (∃ c rest e, s.pending = .command c :: rest ∧ decode c = .error e ∧
      t = ({ s with pending := rest } : State).deliver ⟨.illegalCommand, 0, 0, 0, 0⟩) ∨
    (∃ c rest i, s.pending = .command c :: rest ∧ decode c = .ok i ∧ exec i { s with pending := rest } = .next t) := by
  unfold step at h
  cases hp : s.pending with
  | nil =>
    rw [accept_nil hp] at h
    cases h
    exact .inl ⟨rfl, rfl⟩
  | cons x rest =>
    rw [accept_cons hp] at h
    cases x with
    | reset =>
      cases h
      exact .inr (.inl ⟨rest, rfl, rfl⟩)
    | command c =>
      cases hd : decode c with
      | error e =>
        simp only [hd] at h
        cases h
        exact .inr (.inr (.inl ⟨c, rest, e, rfl, hd, rfl⟩))
      | ok i =>
        simp only [hd] at h
        exact .inr (.inr (.inr ⟨c, rest, i, rfl, hd, h⟩))

/-- A state that delivers one response beyond another's delivers no other one. -/
theorem delivers_unique {s t : State} {r r' : Response} (h : Delivers s t [r]) (h' : Delivers s t [r']) : r = r' := by
  simpa [Delivers] using h.symm.trans h'

end Sys2Proof.Machine
end

