-- ==== Sys2Proof/Tests/Slice0.lean ====
section
/-! SUPPORT. The model's own tests. Expected values come from spec/95_test_vectors.md and the worked examples of the rules, at
the place each comment names; the witnesses at the end meet the hypotheses of the obligations. -/

namespace Sys2Proof.Tests

open Machine

/-- The state left by `SEED.WI 42, 54` (95_test_vectors.md 2.5), with nothing sent or answered. -/
def seeded54 : State :=
  { state := 0x185706B82C2E03F8, inc := 0x6D, seeded := true, pending := [], delivered := [], entropyDraws := 0, resets := 0 }

/-- A block that is not seeded, whose increment is the default the vectors assume (R9). -/
def unseeded : State :=
  { state := 0xDEAD, inc := 0x14057B7EF767814F, seeded := false, pending := [], delivered := [], entropyDraws := 0,
    resets := 0 }

/-- `STATE`, `INC`, `SEEDED` and the responses of a next state. -/
def view (r : Result) : Option (Wide × Wide × Bool × List Response) :=
  match r with
  | .next t => some (t.state, t.inc, t.seeded, t.delivered)
  | .fault _ => none
  | .refused _ => none

/-- The block's view after answering `OK` with four words. -/
def okView (state inc : Wide) (r0 r1 r2 r3 : Word) : Option (Wide × Wide × Bool × List Response) :=
  some (state, inc, true, [⟨.ok, r0, r1, r2, r3⟩])

/-! ### Well-formedness: the one check, and a term it refuses -/

theorem test_wellFormed_length7 : (Instr.setState 7 0 0 0 0).wellFormed = true := by decide
theorem test_illFormed_length8 : (Instr.setState 8 0 0 0 0).wellFormed = false := by decide

/-! ### Decoding: the words of R51, bit by bit (RSV, T, N, OP) -/

theorem test_decode_seedRnd : decode ⟨0b000000000000000000000000_0_000_0001, 9, 8, 7, 6⟩ = .ok .seedRnd := by decide
theorem test_decode_seed1 : decode ⟨0b000000000000000000000000_0_001_0001, 9, 8, 7, 6⟩ = .ok (.seed1 9) := by decide
theorem test_decode_seed2 : decode ⟨0b000000000000000000000000_0_010_0001, 9, 8, 7, 6⟩ = .ok (.seed2 9 8) := by decide
theorem test_decode_seed4 : decode ⟨0b000000000000000000000000_0_100_0001, 9, 8, 7, 6⟩ = .ok (.seed4 9 8 7 6) := by decide
theorem test_decode_seedW :
    decode ⟨0b000000000000000000000000_1_001_0001, 9, 8, 7, 6⟩ = .ok (.seedW 0x0000000800000009) := by decide
theorem test_decode_seedWI :
    decode ⟨0b000000000000000000000000_1_010_0001, 9, 8, 7, 6⟩ = .ok (.seedWI 0x0000000800000009 0x0000000600000007) := by
  decide
theorem test_decode_setState :
    decode ⟨0b000000000000000000000000_0_100_0010, 9, 8, 7, 6⟩ = .ok (.setState 4 9 8 7 6) := by decide
theorem test_decode_getState : decode ⟨0b000000000000000000000000_0_000_0011, 9, 8, 7, 6⟩ = .ok .getState := by decide
theorem test_decode_next32 : decode ⟨0b000000000000000000000000_0_000_0100, 9, 8, 7, 6⟩ = .ok .next32 := by decide
theorem test_decode_integerRaw : decode ⟨0b000000000000000000000000_0_000_0101, 9, 8, 7, 6⟩ = .ok .integerRaw := by decide
theorem test_decode_integerU : decode ⟨0b000000000000000000000000_0_001_0101, 9, 8, 7, 6⟩ = .ok (.integerU 9) := by decide
theorem test_decode_integerS :
    decode ⟨0b000000000000000000000000_1_001_0101, 9, 8, 7, 6⟩ = .ok (.integerS 0x0000000800000009) := by decide
theorem test_decode_number : decode ⟨0b000000000000000000000000_0_000_0110, 9, 8, 7, 6⟩ = .ok .number := by decide

/-- The illegal words of 95_test_vectors.md 2.10, each with its reason. -/
theorem test_decode_illegal :
    (decode ⟨0x00000000, 0, 0, 0, 0⟩ = .error .undefinedOp ∧ decode ⟨0x00000007, 0, 0, 0, 0⟩ = .error .undefinedOp ∧
      decode ⟨0x0000000F, 0, 0, 0, 0⟩ = .error .undefinedOp) ∧
    (decode ⟨0x00000031, 0, 0, 0, 0⟩ = .error .undefinedShape ∧ decode ⟨0x00000081, 0, 0, 0, 0⟩ = .error .undefinedShape ∧
      decode ⟨0x000000F1, 0, 0, 0, 0⟩ = .error .undefinedShape ∧ decode ⟨0x000000C2, 0, 0, 0, 0⟩ = .error .undefinedShape ∧
      decode ⟨0x00000013, 0, 0, 0, 0⟩ = .error .undefinedShape ∧ decode ⟨0x00000084, 0, 0, 0, 0⟩ = .error .undefinedShape ∧
      decode ⟨0x00000085, 0, 0, 0, 0⟩ = .error .undefinedShape ∧ decode ⟨0x000000A5, 0, 0, 0, 0⟩ = .error .undefinedShape ∧
      decode ⟨0x00000016, 0, 0, 0, 0⟩ = .error .undefinedShape) ∧
    decode ⟨0x00000104, 0, 0, 0, 0⟩ = .error .reservedBit ∧ decode ⟨0x80000004, 0, 0, 0, 0⟩ = .error .reservedBit ∧
      decode ⟨0x00010006, 0, 0, 0, 0⟩ = .error .reservedBit := by decide

/-! ### The functional units (95_test_vectors.md 2.1 to 2.4, 2.9) -/

theorem test_add64_carry : add64 0x00000001FFFFFFFF 0x00000001FFFFFFFF = 0x00000003FFFFFFFE := by decide
theorem test_mul64_low_half : mul64 0x0123456789ABCDEF 0xFEDCBA9876543210 = 0x2236D88FE5618CF0 := by decide
theorem test_mul64_halved : mul64Halved 0x89ABCDEF 0x01234567 0x76543210 0xFEDCBA98 = (0xE5618CF0, 0x2236D88F) := by decide
theorem test_incXform_carry : incXform 0x80000000 = 0x100000001 := by decide
theorem test_incXform_odd_shifted : incXform 7 = 15 := by decide
theorem test_stepFn : stepFn 0x0123456789ABCDEF 0xFFFFFFFFFFFFFFFF = 0x18DDB1A43E77C402 := by decide
theorem test_ror32 : ror32 0x12345678 4 = 0x81234567 ∧ ror32 0x80000000 31 = 1 ∧ ror32 0x12345678 0 = 0x12345678 := by decide
theorem test_xshrr : xshrr 0xFEDCBA9876543210 = 0xB7214BD7 ∧ xshrr 0x853C49E6748FEA9B = 0x152CA78D := by decide
theorem test_xshrr_halved : xshrrHalved 0x76543210 0xFEDCBA98 = 0xB7214BD7 := by decide
theorem test_skew : skew 10 = 6 ∧ skew 0x80000001 = 0x7FFFFFFF ∧ skew 0xFFFFFFFF = 1 ∧ skew 8 = 0 := by decide
theorem test_binary64 :
    binary64 3 = 0x3CB8000000000000 ∧ binary64 0x0010000000000001 = 0x3FE0000000000001 ∧
      binary64 0x001FFFFFFFFFFFFF = 0x3FEFFFFFFFFFFFFF ∧ binary64 0x0000000007FFFFFF = 0x3E4FFFFFFC000000 := by decide

/-! ### The commands, one step each -/

/-- 2.5, last row of the table, for the entropy answer `seedLo = 0x2A`, `seedHi = 0`. -/
theorem test_seedRnd_seed : (seedCore (wideOf 0x2A 0) unseeded).state = 0x977AFD8015414A94 := by decide
/-- R70: two entropy words are drawn, the first the low half, and `INC` is kept. -/
theorem test_seedRnd_draws_low_first :
    exec .seedRnd seeded54 = .next ((seedCore (wideOf (Config.entropyWord 0) (Config.entropyWord 1))
      { seeded54 with entropyDraws := 2 }).deliver ⟨.ok, 0, 0, 0, 0⟩) := rfl
/-- 2.5. -/
theorem test_seed1 :
    view (exec (.seed1 0xFFFFFFFF) unseeded) = okView 0x0E4C79113824EE05 0x14057B7EF767814F 0 0 0 0 := by decide
/-- 2.5, "increment kept across a re-seed". -/
theorem test_seed1_keeps_increment :
    view (exec (.seed1 5) { seeded54 with inc := 0xF }) = okView 0xE6671389FBADEF93 0xF 0 0 0 0 := by decide
/-- 2.5. -/
theorem test_seed2 : view (exec (.seed2 1 2) unseeded) = okView 0x0B85E098D14FEC5F 0x14057B7EF767814F 0 0 0 0 := by decide
/-- 2.5: the carry of the transform. -/
theorem test_seed4 :
    view (exec (.seed4 1 0 0x80000000 0) unseeded) = okView 0xFD396788992AFE5B 0x0000000100000001 0 0 0 0 := by decide
/-- 2.5. -/
theorem test_seedW : view (exec (.seedW 42) unseeded) = okView 0x977AFD8015414A94 0x14057B7EF767814F 0 0 0 0 := by decide
/-- 2.5. -/
theorem test_seedWI :
    view (exec (.seedWI 0xDEADBEEFCAFEBABE 0x8000000000000001) unseeded) = okView 0x8FF0137C0BC192F0 3 0 0 0 0 := by decide
/-- 2.6: bit 0 of element 2 is forced, nothing is shifted. -/
theorem test_setState :
    view (exec (.setState 4 0xDEADBEEF 0x01234567 0xFFFFFFFE 0x89ABCDEF) unseeded) =
      okView 0x01234567DEADBEEF 0x89ABCDEFFFFFFFFF 0 0 0 0 := by decide
/-- 2.11: a wrong length before seeding. -/
theorem test_setState_wrong_length :
    view (exec (.setState 3 1 2 3 0) unseeded) =
      some (0xDEAD, 0x14057B7EF767814F, false, [⟨.invalidState, 0, 0, 0, 0⟩]) := by decide
/-- R78, example. -/
theorem test_getState :
    view (exec .getState seeded54) = okView 0x185706B82C2E03F8 0x6D 0x2C2E03F8 0x185706B8 0x6D 0 := by decide
/-- 2.6, last row. -/
theorem test_getState_unseeded :
    view (exec .getState unseeded) = some (0xDEAD, 0x14057B7EF767814F, false, [⟨.notSeeded, 0, 0, 0, 0⟩]) := by decide
/-- R90, example. -/
theorem test_next32 : view (exec .next32 seeded54) = okView 0x2B47FED88766BB05 0x6D 0xA15C02B7 0 0 0 := by decide
/-- 2.7, corner. -/
theorem test_next32_unseeded :
    view (exec .next32 unseeded) = some (0xDEAD, 0x14057B7EF767814F, false, [⟨.notSeeded, 0, 0, 0, 0⟩]) := by decide
/-- 2.8. -/
theorem test_integerRaw : view (exec .integerRaw seeded54) = okView 0x2B47FED88766BB05 0x6D 0xA15C02B7 0 0 0 := by decide
/-- 2.8: general path, fast path, raw sentinel. -/
theorem test_integerU :
    view (exec (.integerU 6) seeded54) = okView 0x2B47FED88766BB05 0x6D 3 0 0 0 ∧
    view (exec (.integerU 8) seeded54) = okView 0x2B47FED88766BB05 0x6D 7 0 0 0 ∧
    view (exec (.integerU 0) seeded54) = okView 0x2B47FED88766BB05 0x6D 0xA15C02B7 0 0 0 :=
  ⟨by decide, by decide, by decide⟩
/-- R97, the example with a rejection: two transitions. -/
theorem test_integerU_rejects :
    view (exec (.integerU 0x80000001) { seeded54 with state := 0x2B47FED88766BB05 }) =
      okView 0xF7079824C154BF23 0x6D 0x3A1D332F 0 0 0 := by decide
/-- 2.8: in range, negative, and 2^32. -/
theorem test_integerS :
    view (exec (.integerS 6) seeded54) = okView 0x2B47FED88766BB05 0x6D 3 0 0 0 ∧
    view (exec (.integerS 0xFFFFFFFFFFFFFFFB) seeded54) =
      some (0x185706B82C2E03F8, 0x6D, true, [⟨.invalidRange, 0, 0, 0, 0⟩]) ∧
    view (exec (.integerS 0x0000000100000000) seeded54) =
      some (0x185706B82C2E03F8, 0x6D, true, [⟨.invalidRange, 0, 0, 0, 0⟩]) :=
  ⟨by decide, by decide, by decide⟩
/-- 2.11, first row: `NotSeeded`, not `InvalidRange`. -/
theorem test_integerS_priority :
    view (exec (.integerS 0xFFFFFFFFFFFFFFFF) unseeded) =
      some (0xDEAD, 0x14057B7EF767814F, false, [⟨.notSeeded, 0, 0, 0, 0⟩]) := by decide
/-- R101, example. -/
theorem test_number :
    view (exec .number seeded54) = okView 0x8B33296D19BF5B4E 0x6D 0x768FE812 0x3FD5C02B 0xBB47F409 0x000AE015 := by decide
/-- Script P4, line 6: `K` at and above 2^52. -/
theorem test_number_upper_half :
    view (exec .number { seeded54 with state := 0x8303569FBE80C471 }) =
      okView 0xED81149F2FB94E6F 0x6D 0x77C6A3AD 0x3FEF6B03 0x77C6A3AD 0x001F6B03 := by decide

/-! ### Steps, from the host's inputs -/

/-- 2.11: an illegal word changes nothing. -/
theorem test_step_illegal :
    view (step (seeded54.withFetchWord 32 0x31)) =
      some (0x185706B82C2E03F8, 0x6D, true, [⟨.illegalCommand, 0, 0, 0, 0⟩]) := by decide
/-- The first step after reset runs the placed command; `NEXT32` then is `NotSeeded` (P2, line 1). -/
theorem test_step_after_reset :
    view (step (State.reset.withFetchWord 32 0x04)) =
      some (State.reset.state, State.reset.inc, false, [⟨.notSeeded, 0, 0, 0, 0⟩]) := rfl
/-- P1, line 1, assembled from its script line (R55). -/
theorem test_assemble_seedWI : (ScriptLine.seedWI 42 54).assemble = some ⟨0xA1, 0x2A, 0, 0x36, 0⟩ := by decide
/-- 2.8: the encoding of `INTEGER.S -5`, from the source's spelling (R56). -/
theorem test_assemble_negative :
    ((PseudoCommand.integer (some (-5))).expand.bind ScriptLine.assemble) = some ⟨0x95, 0xFFFFFFFB, 0xFFFFFFFF, 0, 0⟩ := by
  decide
/-- 2.6: `SETSTATE [1, 2, 3, 5, 8]` has `CW = 0x52`; a list of eight elements is not assembled. -/
theorem test_assemble_setState :
    (ScriptLine.setState [1, 2, 3, 5, 8]).assemble = some ⟨0x52, 1, 2, 3, 5⟩ ∧
    (ScriptLine.setState [1, 2, 3, 4, 5, 6, 7, 8]).assemble = none := by decide
theorem test_decodeTableWord : decodeTableWord 32 0x72 = some (.setState 7 0 0 0 0) ∧ decodeTableWord 32 0x82 = none := by
  decide

/-! ### Witnesses: every statement with hypotheses has a state and operands that meet them -/

/-- `NEXT32` as the host sends it. -/
def sendNext : Input := .command ⟨4, 0, 0, 0, 0⟩

/-- `SETSTATE` of a wrong length, as the host sends it. -/
def sendBad : Input := .command ⟨0x32, 0, 0, 0, 0⟩

theorem witness_UnseededStateIsUnobservable :
    ∃ t, State.reset.seeded = false ∧ step (State.reset.withFetchWord 32 4) = .next t := ⟨_, rfl, rfl⟩
theorem witness_UnseededStateIsUnobservable_seeding :
    ∃ t, step (State.reset.withFetchWord 32 0x11) = .next t ∧ t.seeded = true := ⟨_, rfl, rfl⟩
theorem witness_ResetActionLeavesUnseededDefaults :
    ({ seeded54 with pending := [.reset] } : State).pending = .reset :: [] := rfl
theorem witness_IncrementIsOddInEveryReachableState : Reachable (State.reset.send sendNext) := .send _ .reset
theorem witness_StepKeepsInvariant : ∃ t, seeded54.Inv ∧ step seeded54 = .next t :=
  ⟨_, ⟨by decide, by decide, by decide⟩, rfl⟩
theorem witness_EveryStepAnswersWhenIncrementOdd : seeded54.IncOdd := by decide
theorem witness_EachCommandGetsOneResponse :
    ∃ t, ({ seeded54 with pending := [sendNext] } : State).pending = sendNext :: [] ∧
      step { seeded54 with pending := [sendNext] } = .next t := ⟨_, rfl, rfl⟩
theorem witness_StepRunsDecodedCommand :
    ({ seeded54 with pending := [sendNext] } : State).pending = sendNext :: [] ∧ decode ⟨4, 0, 0, 0, 0⟩ = .ok .next32 :=
  ⟨rfl, rfl⟩
theorem witness_IdleStepHoldsState : State.reset.pending = [] := rfl
theorem witness_IncrementTransformShiftsAndSetsLowBit : ∀ i < 63, (0x8000000000000000 : Wide).getLsbD i = (0 : Wide).getLsbD i := by
  decide
theorem witness_StepFunctionIsCongruential :
    ∃ p r : Word × Word, p = mul64Halved 0x2C2E03F8 0x185706B8 0x4C957F2D 0x5851F42D ∧ r = add64Halved p.1 p.2 0x6D 0 :=
  ⟨_, _, rfl, rfl⟩
theorem witness_StepHasFullPeriod : (0x6D : Wide).getLsbD 0 = true := by decide
theorem witness_RotateWrapsWithin32Bits : (31 : Nat) < 32 ∧ (31 : Nat) ≠ 0 := by decide
theorem witness_PermutationBitByBit : (0x7FFFFFF : Wide).toNat / 2 ^ 27 = (0 : Wide).toNat / 2 ^ 27 := by decide
theorem witness_SeedRndResult :
    ∃ lo hi, lo = Config.entropyWord seeded54.entropyDraws ∧ hi = Config.entropyWord (seeded54.entropyDraws + 1) :=
  ⟨_, _, rfl, rfl⟩
theorem witness_Seed4Result : (0x6D : Wide) = incXform (wideOf 54 0) := by decide
theorem witness_SeedWIResult : (0x6D : Wide) = incXform 54 := by decide
theorem witness_SetStateResult : (7 : Nat) < 8 ∧ (7 : Nat) ≠ 4 := by decide
theorem witness_GetStateResult : seeded54.seeded = true ∧ unseeded.seeded = false := by decide
theorem witness_StateRoundTripResumesSequence :
    ∃ a' a'', seeded54.seeded = true ∧ seeded54.IncOdd ∧ exec .getState seeded54 = .next a' ∧
      Delivers seeded54 a' [⟨.ok, 0x2C2E03F8, 0x185706B8, 0x6D, 0⟩] ∧
      (∀ i ∈ [Instr.next32, .number], i.deterministic = true) ∧ runScript [.next32, .number] a' = .next a'' :=
  ⟨_, _, rfl, by decide, rfl, by decide, by decide, rfl⟩
theorem witness_SeedingIsIdempotent :
    (∃ t, (Instr.seed1 5).needsSeeding = false ∧ (Instr.seed1 5).deterministic = true ∧
      exec (.seed1 5) unseeded = .next t) ∧
    ∃ t, exec .getState unseeded = .next t ∧ Delivers unseeded t [⟨.notSeeded, 0, 0, 0, 0⟩] :=
  ⟨⟨_, rfl, rfl, rfl⟩, _, rfl, by decide⟩
theorem witness_Next32Result : seeded54.seeded = true ∧ unseeded.seeded = false := by decide
theorem witness_IntegerRawResult : seeded54.seeded = true ∧ unseeded.seeded = false := by decide
theorem witness_IntegerUResult : (seeded54.seeded = true ∧ seeded54.IncOdd) ∧ unseeded.seeded = false := by decide
theorem witness_IntegerSResult :
    (seeded54.seeded = true ∧ seeded54.IncOdd ∧ (0 : Word) = 0) ∧ (seeded54.seeded = true ∧ (1 : Word) ≠ 0) ∧
      unseeded.seeded = false := by decide
theorem witness_StuckExactlyWhenLoopNeverEnds : seeded54.seeded = true ∧ (0x80000001 : Word) ≠ 0 := by decide

/-- Seeded with `STATE` and `INC` both 0, which no run reaches (R19): a core transition leaves it as it is. -/
def zeroed : State := { seeded54 with state := 0, inc := 0 }

theorem outputAt_zeroed (n : Nat) : outputAt zeroed n = 0 := by
  have h : stateAfter zeroed n = 0 := by
    induction n with
    | zero => rfl
    | succ n ih => rw [stateAfter_succ, ih]; rfl
  rw [outputAt, h]
  decide

/-- For bound 3 the skew is 1 and every candidate of `zeroed` is 0: all are rejected, and `INTEGER.U` is stuck (R99). -/
theorem witness_StuckExactlyWhenLoopNeverEnds_stuck :
    (zeroed.seeded = true ∧ (3 : Word) ≠ 0 ∧ ∀ n, (outputAt zeroed n).toNat < (2 ^ 32 - (3 : Word).toNat) % (3 : Word).toNat) ∧
      exec (.integerU 3) zeroed = .fault .rejectionLoopStuck := by
  refine ⟨⟨rfl, by decide, fun n => by rw [outputAt_zeroed]; decide⟩, ?_⟩
  have hloop : rangedLoop 3 loopBound zeroed = none :=
    (rangedLoop_eq_none _ _ _).2 fun n _ => by rw [outputAt_zeroed]; decide
  exact (integerProc_word 3 (s := zeroed) rfl).trans ((if_neg (by decide)).trans (respondRanged_stuck (by decide) hloop))
theorem witness_SkewFormsAndBounds : (0xFFFFFFFF : Word) ≠ 0 := by decide
theorem witness_FastPathEqualsGeneralPath :
    (0x80000000 : Word) ≠ 0 ∧ (0x80000000 : Word) &&& (0x80000000 - 1) = 0 := by decide
theorem witness_IntegerStaysBelowBound :
    ∃ t, (6 : Word) ≠ 0 ∧ Delivers seeded54 t [⟨.ok, 3, 0, 0, 0⟩] ∧ exec (.integerU 6) seeded54 = .next t :=
  ⟨seeded54.advance.deliver ⟨.ok, 3, 0, 0, 0⟩, by decide, by decide, rfl⟩
theorem witness_NumberResult_unseeded : unseeded.seeded = false := by decide
theorem witness_NumberResult :
    ∃ (hi lo k : Nat) (d : Wide), seeded54.seeded = true ∧ hi = (xshrr seeded54.state).toNat % 2 ^ 26 ∧
      lo = (xshrr (stepFn seeded54.state seeded54.inc)).toNat % 2 ^ 27 ∧ k = hi * 2 ^ 27 + lo ∧ d = binary64 k :=
  ⟨_, _, _, _, rfl, rfl, rfl, rfl, rfl⟩
theorem witness_Binary64IsExact :
    ((52 : Nat) ≤ 52 ∧ 2 ^ 52 ≤ 0x1FFFFFFFFFFFFF ∧ 0x1FFFFFFFFFFFFF < 2 ^ (52 + 1)) ∧
      (0 < 0x1FFFFFFFFFFFFF ∧ 0x1FFFFFFFFFFFFF < 2 ^ 53) ∧ binary64 1 = binary64 1 := by decide
theorem witness_NumberStaysBelowOne :
    ∃ t, seeded54.seeded = true ∧ exec .number seeded54 = .next t ∧
      Delivers seeded54 t [⟨.ok, 0x768FE812, 0x3FD5C02B, 0xBB47F409, 0x000AE015⟩] :=
  ⟨seeded54.advance.advance.deliver ⟨.ok, 0x768FE812, 0x3FD5C02B, 0xBB47F409, 0x000AE015⟩, rfl, rfl, by decide⟩
theorem witness_NotSeededBeforeSeeding :
    ∃ t, Instr.next32.needsSeeding = true ∧ unseeded.seeded = false ∧ exec .next32 unseeded = .next t ∧
      Delivers unseeded t [⟨.notSeeded, 0, 0, 0, 0⟩] := ⟨_, rfl, rfl, rfl, by decide⟩
theorem witness_CommandsEndInTheirStatuses :
    ∃ t, exec (.setState 5 0 0 0 0) unseeded = .next t ∧ Delivers unseeded t [⟨.invalidState, 0, 0, 0, 0⟩] :=
  ⟨_, rfl, by decide⟩
theorem witness_IllegalCommandHasNoEffect :
    ({ unseeded with pending := [.command ⟨0x31, 0, 0, 0, 0⟩] } : State).pending = .command ⟨0x31, 0, 0, 0, 0⟩ :: [] ∧
      decode ⟨0x31, 0, 0, 0, 0⟩ = .error .undefinedShape := ⟨rfl, rfl⟩
theorem witness_FaultPriority :
    (unseeded.seeded = false ∧ signedWide 0xFFFFFFFFFFFFFFFF < 0 ∧ signedWide 0x0000000100000000 > 0xFFFFFFFF) ∧
      (3 : Nat) ≠ 4 := by decide
theorem witness_FaultPriority_illegal :
    ({ unseeded with pending := [.command ⟨0, 0, 0, 0, 0⟩] } : State).pending = .command ⟨0, 0, 0, 0, 0⟩ :: [] ∧
      decode ⟨0, 0, 0, 0, 0⟩ = .error .undefinedOp := ⟨rfl, rfl⟩
theorem witness_FaultChangesNothing :
    (∃ t, exec (.setState 5 0 0 0 0) seeded54 = .next t ∧ Delivers seeded54 t [⟨.invalidState, 0, 0, 0, 0⟩] ∧
      Status.invalidState ≠ .ok) ∧
    ∃ t, step { seeded54 with pending := [sendBad] } = .next t ∧
      Delivers { seeded54 with pending := [sendBad] } t [⟨.invalidState, 0, 0, 0, 0⟩] :=
  ⟨⟨_, rfl, by decide, by decide⟩, _, rfl, by decide⟩
theorem witness_NextCommandIgnoresEarlierFault :
    ∃ t t', step { seeded54 with pending := [sendBad, sendNext] } = .next t ∧
      Delivers { seeded54 with pending := [sendBad, sendNext] } t [⟨.invalidState, 0, 0, 0, 0⟩] ∧ step t = .next t' :=
  ⟨_, _, rfl, by decide, rfl⟩
theorem witness_EqualStatesAnswerScriptsAlike :
    ∃ t, (∀ i ∈ [Instr.seed1 5, .integerU 6], i.deterministic = true) ∧
      SameRegs seeded54 { seeded54 with entropyDraws := 3 } ∧ runScript [.seed1 5, .integerU 6] seeded54 = .next t :=
  ⟨_, by decide, ⟨rfl, rfl, rfl⟩, rfl⟩
theorem witness_FrameOfEveryCommand :
    ∃ t, exec .getState seeded54 = .next t ∧ Instr.getState.writesInc = false ∧ Instr.getState.needsSeeding = true :=
  ⟨_, rfl, rfl, rfl⟩
theorem witness_DecodeAfterEncode : (Instr.setState 7 1 2 3 4).wellFormed = true := by decide
theorem witness_EncodeAfterDecode : decode ⟨0x95, 1, 2, 3, 4⟩ = .ok (.integerS 0x0000000200000001) := by decide
theorem witness_UnusedOperandWordsAreIgnored :
    ((1 : Nat) = (if fieldOp 0x11 = 2 ∧ fieldN 0x11 ≠ 4 then 0 else if fieldT 0x11 = 0 then fieldN 0x11 else 2 * fieldN 0x11)) ∧
    ((0 : Nat) = (if fieldOp 0x72 = 2 ∧ fieldN 0x72 ≠ 4 then 0 else if fieldT 0x72 = 0 then fieldN 0x72 else 2 * fieldN 0x72)) ∧
    ((4 : Nat) = (if fieldOp 0xA1 = 2 ∧ fieldN 0xA1 ≠ 4 then 0 else if fieldT 0xA1 = 0 then fieldN 0xA1 else 2 * fieldN 0xA1)) := by
  decide
theorem witness_AssembledLinesDecode : ∃ c, (ScriptLine.setState [1, 2, 3]).assemble = some c := ⟨_, rfl⟩
theorem witness_AssembledLinesDecode_bounds :
    ((0xFFFFFFFF : Nat) < 2 ^ 32 ∧ (0xFFFFFFFFFFFFFFFF : Nat) < 2 ^ 64) ∧
      (([1, 2, 3, 0xFFFFFFFF, 5, 6, 7] : List Nat).length ≤ 7 ∧ ∀ e ∈ [1, 2, 3, 0xFFFFFFFF, 5, 6, 7].take 4, e < 2 ^ 32) ∧
      7 < ([1, 2, 3, 4, 5, 6, 7, 8] : List Nat).length ∧
      ((-2 : Int) ^ 63 ≤ -2 ^ 63 ∧ (-2 : Int) ^ 63 < 2 ^ 64 ∧ 2 ^ 63 = (((-2 : Int) ^ 63) % 2 ^ 64).toNat) := by decide
theorem witness_PseudoIntegerPicksForm :
    ((0 : Int) ≤ 0xFFFFFFFF ∧ (0xFFFFFFFF : Int) ≤ 0xFFFFFFFF) ∧ ((-2 : Int) ^ 63 ≤ -2 ^ 63 ∧ (-2 : Int) ^ 63 < 0) ∧
      ((0xFFFFFFFF : Int) < 2 ^ 32 ∧ (2 : Int) ^ 32 < 2 ^ 63) := by decide

end Sys2Proof.Tests
end

section
/-! SUPPORT. Proofs of the family of spec/10_state.md: what a step answers in each of its four cases, what one command can
do (an inversion lemma for `exec`), and from the two the invariant, the frame of every command and the noninterference of an
unseeded `STATE`. -/

namespace Sys2Proof.Machine

/-! ### The four cases of a step, as equations -/

/-- With nothing sent, the state is held (R124). -/
theorem step_of_pending_nil {s : State} (hp : s.pending = []) : step s = .next s := by
  simp only [step, accept_nil hp]

/-- A reset event is taken from the queue and the reset action runs (R125). -/
theorem step_of_pending_reset {s : State} {rest : List Input} (hp : s.pending = .reset :: rest) :
    step s = .next ({ s with pending := rest } : State).applyReset := by
  simp only [step, accept_cons hp]

/-- An illegal command is taken from the queue and answered `IllegalCommand` (R111). -/
theorem step_of_illegal {s : State} {c : Command} {rest : List Input} {e : Illegal} (hp : s.pending = .command c :: rest)
    (hd : decode c = .error e) : step s = raise .illegalCommand { s with pending := rest } := by
  simp only [step, accept_cons hp, hd]

/-- A command that decodes is taken from the queue and executed (R41, R52). -/
theorem step_of_decoded {s : State} {c : Command} {rest : List Input} {i : Instr} (hp : s.pending = .command c :: rest)
    (hd : decode c = .ok i) : step s = exec i { s with pending := rest } := by
  simp only [step, accept_cons hp, hd]

/-! ### What one command can do -/

/-- The state a completed seeding command or `SETSTATE` leaves: new registers, `SEEDED` set, `draws` entropy words consumed,
and one `OK` response without data (R70 to R77). `respondDone_seedCore` and `exec_seeding_cases` tie it to `exec`. -/
def State.completed (s : State) (state inc : Wide) (draws : Nat) : State :=
  { s with
    state := state, inc := inc, seeded := true, entropyDraws := s.entropyDraws + draws,
    delivered := s.delivered ++ [⟨.ok, 0, 0, 0, 0⟩] }

/-- A seeding command ends in the closed form of the seeding procedure (R68), which does not read the old `STATE`. -/
theorem respondDone_seedCore (seed : Wide) (s : State) :
    respondDone (seedCore seed s) = .next (s.completed (stepFn (s.inc + seed) s.inc) s.inc 0) := by
  rw [seedCore_eq]
  rfl

/-- What a command that does not need a seeding can do, whatever `STATE` holds: a `SETSTATE` of a wrong length is refused,
and every other one completes with registers that do not depend on the old `STATE`; `INC` is kept or replaced by an odd
value (R70 to R77). -/
theorem exec_seeding_cases {i : Instr} (hneeds : i.needsSeeding = false) (s : State) :
    (i.deterministic = true ∧ ∀ v, exec i (s.writeState v) = raise .invalidState (s.writeState v)) ∨
    ∃ state inc, (inc = s.inc ∨ i.writesInc = true ∧ inc.getLsbD 0 = true) ∧
      ∀ v, exec i (s.writeState v) = .next (s.completed state inc (if i.deterministic then 0 else 2)) := by
  cases i with
  | seedRnd =>
    exact .inr ⟨stepFn (s.inc + wideOf (Config.entropyWord s.entropyDraws) (Config.entropyWord (s.entropyDraws + 1))) s.inc,
      s.inc, .inl rfl, fun _ => respondDone_seedCore _ _⟩
  | seed1 lo => exact .inr ⟨stepFn (s.inc + lo.setWidth 64) s.inc, s.inc, .inl rfl, fun _ => respondDone_seedCore _ _⟩
  | seed2 lo hi => exact .inr ⟨stepFn (s.inc + wideOf lo hi) s.inc, s.inc, .inl rfl, fun _ => respondDone_seedCore _ _⟩
  | seed4 lo hi incLo incHi =>
    exact .inr ⟨stepFn (incXform (wideOf incLo incHi) + wideOf lo hi) (incXform (wideOf incLo incHi)), _,
      .inr ⟨rfl, incXform_odd _⟩, fun _ => respondDone_seedCore _ _⟩
  | seedW seed => exact .inr ⟨stepFn (s.inc + seed) s.inc, s.inc, .inl rfl, fun _ => respondDone_seedCore _ _⟩
  | seedWI seed inc =>
    exact .inr ⟨stepFn (incXform inc + seed) (incXform inc), _, .inr ⟨rfl, incXform_odd _⟩,
      fun _ => respondDone_seedCore _ _⟩
  | setState len e0 e1 e2 e3 =>
    by_cases hlen : len ≠ 4
    · exact .inl ⟨rfl, fun _ => if_pos hlen⟩
    · exact .inr ⟨wideOf e0 e1, wideOf e2 e3 ||| 1, .inr ⟨rfl, forced_odd _⟩, fun _ => if_neg hlen⟩
  | getState | next32 | integerRaw | integerU | integerS | number => cases hneeds

/-- Before a seeding, a command that needs one is answered `NotSeeded` (R112). -/
theorem exec_of_unseeded {i : Instr} (hi : i.needsSeeding = true) {s : State} (hs : s.seeded = false) :
    exec i s = raise .notSeeded s := by
  cases i with
  | getState | next32 | integerRaw | integerU | integerS | number => exact whenSeeded_of_unseeded hs _
  | seedRnd | seed1 | seed2 | seed4 | seedW | seedWI | setState => cases hi

/-- What `INTEGER_PROC` does once seeded, when it answers: it refuses the bound, or makes some transitions (R92). -/
theorem integerProc_next_cases {m : Int} {s t : State} (hs : s.seeded = true) (h : integerProc m s = .next t) :
    t = s.deliver ⟨.invalidRange, 0, 0, 0, 0⟩ ∨ ∃ n v, SteppedWith s t n ⟨.ok, v, 0, 0, 0⟩ := by
  obtain ⟨hun, -⟩ | ⟨-, -, heq⟩ | ⟨-, n, v, u, hu, heq⟩ | ⟨-, heq, -⟩ := integerProc_cases m s
  · simp [hs] at hun
  · cases heq.symm.trans h
    exact .inl rfl
  · cases heq.symm.trans h
    exact .inr ⟨n, v, hu⟩
  · cases heq.symm.trans h

/-- What a command that needs a seeding does once seeded, when it answers: it refuses its bound, or it makes some core
transitions, none for `GETSTATE`, and answers `OK` (R78, R90 to R101). -/
theorem exec_sampling_cases {i : Instr} (hi : i.needsSeeding = true) {s t : State} (hs : s.seeded = true)
    (h : exec i s = .next t) :
    t = s.deliver ⟨.invalidRange, 0, 0, 0, 0⟩ ∨
    ∃ n r, r.st = .ok ∧ (i = .getState → n = 0) ∧ SteppedWith s t n r := by
  cases i with
  | getState =>
    cases (whenSeeded_of_seeded hs _).symm.trans h
    exact .inr ⟨0, s.exportWords, rfl, fun _ => rfl, rfl⟩
  | next32 =>
    cases (whenSeeded_of_seeded hs _).symm.trans h
    exact .inr ⟨1, ⟨.ok, outputAt s 0, 0, 0, 0⟩, rfl, nofun, rfl⟩
  | number =>
    cases (whenSeeded_of_seeded hs _).symm.trans h
    exact .inr ⟨2, _, rfl, nofun, rfl⟩
  | integerRaw | integerU | integerS =>
    exact (integerProc_next_cases hs h).imp_right fun ⟨n, _, ht⟩ => ⟨n, _, rfl, nofun, ht⟩
  | seedRnd | seed1 | seed2 | seed4 | seedW | seedWI | setState => cases hi

/-- `SEED.RND` needs no seeding: a command that needs one never reads the entropy source. -/
theorem deterministic_of_needsSeeding {i : Instr} (hi : i.needsSeeding = true) : i.deterministic = true := by
  cases i with
  | seedRnd => cases hi
  | _ => rfl

/-- What a command that answers has done: it ended in a fault with no effect; or it wrote the registers and set `SEEDED`;
or, seeded already, it made some core transitions. -/
theorem exec_cases {i : Instr} {s t : State} (h : exec i s = .next t) :
    (i.deterministic = true ∧ ∃ f, f ≠ .ok ∧ t = s.deliver ⟨f, 0, 0, 0, 0⟩) ∨
    (i.needsSeeding = false ∧ ∃ state inc, (inc = s.inc ∨ i.writesInc = true ∧ inc.getLsbD 0 = true) ∧
      t = s.completed state inc (if i.deterministic then 0 else 2)) ∨
    (i.needsSeeding = true ∧ s.seeded = true ∧
      ∃ n r, r.st = .ok ∧ (i = .getState → n = 0) ∧ SteppedWith s t n r) := by
  cases hi : i.needsSeeding with
  | false =>
    obtain ⟨hdet, heq⟩ | ⟨state, inc, hinc, heq⟩ := exec_seeding_cases hi s
    · cases (heq s.state).symm.trans h
      exact .inl ⟨hdet, .invalidState, nofun, rfl⟩
    · cases (heq s.state).symm.trans h
      exact .inr (.inl ⟨rfl, state, inc, hinc, rfl⟩)
  | true =>
    have hdet := deterministic_of_needsSeeding hi
    cases hs : s.seeded with
    | false =>
      cases (exec_of_unseeded hi hs).symm.trans h
      exact .inl ⟨hdet, .notSeeded, nofun, rfl⟩
    | true =>
      obtain ht | hstepped := exec_sampling_cases hi hs h
      · exact .inl ⟨hdet, .invalidRange, nofun, ht⟩
      · exact .inr (.inr ⟨rfl, rfl, hstepped⟩)

/-! ### The invariant -/

/-- The four zero data words of a fault response (R50, R107). -/
theorem blankOnFault_of_zero (f : Status) : Response.BlankOnFault ⟨f, 0, 0, 0, 0⟩ := fun _ => ⟨rfl, rfl, rfl, rfl⟩

/-- An `OK` response may carry any data words (R50). -/
theorem blankOnFault_of_ok {r : Response} (h : r.st = .ok) : r.BlankOnFault := fun hne => absurd h hne

/-- One response more keeps the clause on the responses when it is blank on a fault itself. -/
theorem blank_append {rs : List Response} {r : Response} (h : ∀ q ∈ rs, q.BlankOnFault) (hr : r.BlankOnFault) :
    ∀ q ∈ rs ++ [r], q.BlankOnFault := by
  intro q hq
  obtain hq | hq := List.mem_append.1 hq
  · exact h q hq
  · rwa [List.mem_singleton.1 hq]

/-- The queue is not part of the invariant. -/
theorem State.Inv.setPending {s : State} (h : s.Inv) (queue : List Input) : ({ s with pending := queue } : State).Inv :=
  ⟨h.incOdd, h.untouched, h.blank⟩

/-- A response that is blank on a fault keeps the invariant. -/
theorem State.Inv.deliver {s : State} (h : s.Inv) {r : Response} (hr : r.BlankOnFault) : (s.deliver r).Inv :=
  ⟨h.incOdd, h.untouched, blank_append h.blank hr⟩

/-- The reset action keeps the invariant: `INC` is the default again and `STATE` the value of the new reset index. -/
theorem State.Inv.applyReset {s : State} (h : s.Inv) : s.applyReset.Inv :=
  ⟨Config.defaultInc_odd, fun _ => ⟨rfl, rfl⟩, h.blank⟩

/-- A completed seeding keeps the invariant when the increment it leaves is odd. -/
theorem State.Inv.completed {s : State} (h : s.Inv) {inc : Wide} (hodd : inc.getLsbD 0 = true) (state : Wide)
    (draws : Nat) : (s.completed state inc draws).Inv :=
  ⟨hodd, nofun, blank_append h.blank (blankOnFault_of_zero .ok)⟩

/-- Core transitions of a seeded block keep the invariant: they write `STATE` alone. -/
theorem State.Inv.steppedWith {s t : State} (h : s.Inv) (hs : s.seeded = true) {n : Nat} {r : Response} (hr : r.st = .ok)
    (ht : SteppedWith s t n r) : t.Inv := by
  subst ht
  exact ⟨h.incOdd, fun hun => by simp [hs] at hun, blank_append h.blank (blankOnFault_of_ok hr)⟩

/-- Every command keeps the invariant. -/
theorem exec_preserves_inv {i : Instr} {s t : State} (hinv : s.Inv) (h : exec i s = .next t) : t.Inv := by
  obtain ⟨-, f, -, rfl⟩ | ⟨-, state, inc, hinc, rfl⟩ | ⟨-, hs, n, r, hr, -, ht⟩ := exec_cases h
  · exact hinv.deliver (blankOnFault_of_zero f)
  · have hodd : inc.getLsbD 0 = true := hinc.elim (fun heq => heq ▸ hinv.incOdd) And.right
    exact hinv.completed hodd state _
  · exact hinv.steppedWith hs hr ht

/-- Settles O4: of the four things a step can do, holding the state keeps the invariant at once, and the reset action, an
`IllegalCommand` and an executed command keep it by their own lemmas. -/
theorem stepKeepsInvariant : Obligations.StepKeepsInvariant := by
  intro s t hinv h
  obtain ⟨-, rfl⟩ | ⟨rest, -, rfl⟩ | ⟨c, rest, e, -, -, rfl⟩ | ⟨c, rest, i, -, -, hexec⟩ := step_cases h
  · exact hinv
  · exact (hinv.setPending rest).applyReset
  · exact (hinv.setPending rest).deliver (blankOnFault_of_zero _)
  · exact exec_preserves_inv (hinv.setPending rest) hexec

/-- Settles O5: reset sets exactly what the invariant asks of an unseeded block, and no response is delivered yet. -/
theorem resetMeetsInvariant : Obligations.ResetMeetsInvariant :=
  ⟨Config.defaultInc_odd, fun _ => ⟨rfl, rfl⟩, nofun⟩

/-- The invariant holds in every state a host can bring the machine to. -/
theorem Reachable.inv {s : State} (h : Reachable s) : s.Inv := by
  induction h with
  | reset => exact resetMeetsInvariant
  | step _ hstep ih => exact stepKeepsInvariant _ _ ih hstep
  | send x _ ih => exact ih.setPending _

/-- Settles O3: the three values a rule writes to `INC` are odd, and the invariant of the reachable states says the rest. -/
theorem incrementIsOddInEveryReachableState : Obligations.IncrementIsOddInEveryReachableState :=
  ⟨Config.defaultInc_odd, incXform_odd, forced_odd, fun _ h => h.inv.incOdd⟩

/-! ### The unseeded `STATE` is not observable -/

/-- What a command does to an unseeded block, whatever `STATE` holds: it ends in a fault with no effect, or it completes a
seeding with registers that do not depend on the old `STATE`. -/
theorem exec_unseeded_cases (i : Instr) {s : State} (hs : s.seeded = false) :
    (∃ f, ∀ v, exec i (s.writeState v) = raise f (s.writeState v)) ∨
    ∃ state inc draws, ∀ v, exec i (s.writeState v) = .next (s.completed state inc draws) := by
  cases hi : i.needsSeeding with
  | true => exact .inl ⟨.notSeeded, fun _ => exec_of_unseeded hi hs⟩
  | false =>
    obtain ⟨-, heq⟩ | ⟨state, inc, -, heq⟩ := exec_seeding_cases hi s
    · exact .inl ⟨.invalidState, heq⟩
    · exact .inr ⟨state, inc, _, heq⟩

/-- A command run on an unseeded block does not read `STATE`: with another value there it does the same, and either it has
written `STATE`, the same in both, or it has kept it and the block is still unseeded. -/
theorem exec_ignores_unseeded_state {i : Instr} {s t : State} (hs : s.seeded = false) (h : exec i s = .next t) (v : Wide) :
    ∃ w, exec i (s.writeState v) = .next (t.writeState w) ∧ (t.seeded = true → w = t.state) := by
  obtain ⟨f, heq⟩ | ⟨state, inc, draws, heq⟩ := exec_unseeded_cases i hs
  · cases (heq s.state).symm.trans h
    exact ⟨v, heq v, fun hseeded => by simp [hs] at hseeded⟩
  · cases (heq s.state).symm.trans h
    exact ⟨state, heq v, fun _ => rfl⟩

/-- A step of an unseeded block does not read `STATE`: with another value there it does the same, and once it has seeded
`STATE` is the same too (R31). -/
theorem step_ignores_unseeded_state {s t : State} (hs : s.seeded = false) (h : step s = .next t) (v : Wide) :
    ∃ w, step (s.writeState v) = .next (t.writeState w) ∧ (t.seeded = true → w = t.state) := by
  obtain ⟨hp, rfl⟩ | ⟨rest, hp, rfl⟩ | ⟨c, rest, e, hp, hd, rfl⟩ | ⟨c, rest, i, hp, hd, hexec⟩ := step_cases h
  · exact ⟨v, step_of_pending_nil hp, fun hseeded => by simp [hs] at hseeded⟩
  · exact ⟨_, step_of_pending_reset (s := s.writeState v) hp, fun _ => rfl⟩
  · exact ⟨v, step_of_illegal (s := s.writeState v) hp hd, fun hseeded => by simp [hs] at hseeded⟩
  · rw [step_of_decoded (s := s.writeState v) hp hd]
    exact exec_ignores_unseeded_state (s := { s with pending := rest }) hs hexec v

/-- Settles O1: reset as its definition says, and a step of an unseeded block by `step_ignores_unseeded_state`. -/
theorem unseededStateIsUnobservable : Obligations.UnseededStateIsUnobservable := by
  refine ⟨⟨rfl, Config.defaultInc_odd, rfl⟩, fun s t v hs h => ?_⟩
  obtain ⟨w, hstep, hw⟩ := step_ignores_unseeded_state hs h v
  exact ⟨t.writeState w, hstep, rfl, rfl, rfl, rfl, rfl, rfl, hw⟩

/-! ### The frame of every command -/

/-- Settles O53: in each of the three things a command can do, the fields the access table does not let it write are those
of the state before. -/
theorem frameOfEveryCommand : Obligations.FrameOfEveryCommand := by
  intro i s t h
  obtain ⟨hdet, f, -, rfl⟩ | ⟨hi, state, inc, hinc, rfl⟩ | ⟨hi, hs, n, r, -, hget, rfl⟩ := exec_cases h
  · exact ⟨rfl, rfl, ⟨_, rfl⟩, by simp [hdet], fun _ => rfl, fun _ => rfl, id, fun _ => rfl⟩
  · refine ⟨rfl, rfl, ⟨_, rfl⟩, rfl, fun hkeeps => ?_, ?_, fun _ => rfl, fun hneeds => ?_⟩
    · exact hinc.resolve_right fun ⟨hwrites, _⟩ => by simp [hkeeps] at hwrites
    · rintro rfl
      cases hi
    · simp [hi] at hneeds
  · have hdet := deterministic_of_needsSeeding hi
    refine ⟨rfl, rfl, ⟨_, rfl⟩, by simp [hdet], fun _ => rfl, fun heq => ?_, id, fun _ => rfl⟩
    simp [hget heq]

end Sys2Proof.Machine
end

section
/-! SUPPORT. Proofs of the family of spec/20_memory.md: the transaction interface (each accepted command is decoded, run and
answered once) and the repetition of seeding commands, `SETSTATE` and `GETSTATE`. -/

namespace Sys2Proof.Machine

/-! ### Accepting a command -/

/-- Settles O8: it is the fourth of a step's cases, `step_of_decoded`. -/
theorem stepRunsDecodedCommand : Obligations.StepRunsDecodedCommand :=
  fun _ _ _ _ hp hd => step_of_decoded hp hd

/-- Every command that answers delivers one response, and a fault carries no data (R41, R50). -/
theorem exec_delivers_one {i : Instr} {s t : State} (h : exec i s = .next t) : ∃ r, Delivers s t [r] ∧ r.BlankOnFault := by
  obtain ⟨-, f, -, rfl⟩ | ⟨-, state, inc, -, rfl⟩ | ⟨-, -, n, r, hr, -, rfl⟩ := exec_cases h
  · exact ⟨_, rfl, blankOnFault_of_zero f⟩
  · exact ⟨_, rfl, blankOnFault_of_zero .ok⟩
  · exact ⟨r, rfl, blankOnFault_of_ok hr⟩

/-- Settles O7: a step with a command in front either answers `IllegalCommand` or executes the command, and either way from
the state whose queue is the rest. -/
theorem eachCommandGetsOneResponse : Obligations.EachCommandGetsOneResponse := by
  intro s t c rest hp h
  cases hd : decode c with
  | error e =>
    cases (step_of_illegal hp hd).symm.trans h
    exact ⟨rfl, _, rfl, blankOnFault_of_zero .illegalCommand⟩
  | ok i =>
    have hexec : exec i { s with pending := rest } = .next t := (step_of_decoded hp hd).symm.trans h
    obtain ⟨hqueue, -⟩ := frameOfEveryCommand _ _ _ hexec
    obtain ⟨r, hdelivers, hblank⟩ := exec_delivers_one hexec
    exact ⟨hqueue, r, hdelivers, hblank⟩

/-! ### Repeating a command -/

/-- A deterministic command that needs no seeding is refused in every state, or completes in every state: the `INC` it leaves
is a function of the old one that changes nothing a second time (it keeps `INC` or overwrites it), and the `STATE` it leaves
is a function of the new `INC` alone (R71 to R77). -/
theorem exec_deterministic_seeding {i : Instr} (hneeds : i.needsSeeding = false) (hdet : i.deterministic = true) :
    (∀ s, exec i s = raise .invalidState s) ∨
    ∃ newState newInc : Wide → Wide, (∀ c, newInc (newInc c) = newInc c) ∧
      ∀ s, exec i s = .next (s.completed (newState (newInc s.inc)) (newInc s.inc) 0) := by
  cases i with
  | seed1 lo => exact .inr ⟨fun c => stepFn (c + lo.setWidth 64) c, id, fun _ => rfl, fun _ => respondDone_seedCore _ _⟩
  | seed2 lo hi => exact .inr ⟨fun c => stepFn (c + wideOf lo hi) c, id, fun _ => rfl, fun _ => respondDone_seedCore _ _⟩
  | seed4 lo hi incLo incHi =>
    exact .inr ⟨fun c => stepFn (c + wideOf lo hi) c, fun _ => incXform (wideOf incLo incHi), fun _ => rfl,
      fun _ => respondDone_seedCore _ _⟩
  | seedW seed => exact .inr ⟨fun c => stepFn (c + seed) c, id, fun _ => rfl, fun _ => respondDone_seedCore _ _⟩
  | seedWI seed inc =>
    exact .inr ⟨fun c => stepFn (c + seed) c, fun _ => incXform inc, fun _ => rfl, fun _ => respondDone_seedCore _ _⟩
  | setState len e0 e1 e2 e3 =>
    by_cases hlen : len ≠ 4
    · exact .inl fun _ => if_pos hlen
    · exact .inr ⟨fun _ => wideOf e0 e1, fun _ => wideOf e2 e3 ||| 1, fun _ => rfl, fun _ => if_neg hlen⟩
  | seedRnd => cases hdet
  | getState | next32 | integerRaw | integerU | integerS | number => cases hneeds

/-- A deterministic seeding command or `SETSTATE` repeated leaves the same registers (R40). -/
theorem exec_seeding_twice {i : Instr} {s t : State} (hneeds : i.needsSeeding = false) (hdet : i.deterministic = true)
    (h : exec i s = .next t) : ∃ u, exec i t = .next u ∧ SameRegs t u := by
  obtain hrefused | ⟨newState, newInc, hidem, heq⟩ := exec_deterministic_seeding hneeds hdet
  · exact ⟨_, hrefused t, rfl, rfl, rfl⟩
  · cases (heq s).symm.trans h
    have hinc : newInc (newInc s.inc) = newInc s.inc := hidem s.inc
    exact ⟨_, heq _, (congrArg newState hinc).symm, hinc.symm, rfl⟩

/-- `GETSTATE` only delivers a response, and delivers the same one when repeated (R40, R78). -/
theorem exec_getState_twice {s t : State} (h : exec .getState s = .next t) :
    ∃ r, t = s.deliver r ∧ exec .getState t = .next (t.deliver r) := by
  cases hs : s.seeded with
  | false =>
    cases (exec_of_unseeded rfl hs).symm.trans h
    exact ⟨_, rfl, exec_of_unseeded rfl hs⟩
  | true =>
    cases (whenSeeded_of_seeded hs _).symm.trans h
    exact ⟨s.exportWords, rfl, whenSeeded_of_seeded (s := s.deliver s.exportWords) hs _⟩

/-- Settles O33: by `exec_seeding_twice` and `exec_getState_twice`. -/
theorem seedingIsIdempotent : Obligations.SeedingIsIdempotent := by
  refine ⟨fun _ _ _ => exec_seeding_twice, fun s t r h hr => ?_⟩
  obtain ⟨r', rfl, hagain⟩ := exec_getState_twice h
  obtain rfl : r' = r := delivers_unique (s := s) rfl hr
  exact ⟨⟨rfl, rfl, rfl⟩, _, hagain, rfl⟩

end Sys2Proof.Machine
end

section
/-! SUPPORT. Proofs of the family of spec/30_encoding.md: what decodes, said once as an equivalence (`decode_eq_ok_iff`), the
operand words a command uses, and what script lines assemble to. -/

namespace Sys2Proof

open Machine

/-! ### What decodes -/

/-- The instruction of the same form whose operands are read from the words of `c` (R48). `decode_eq_ok_iff` ties it to
`decode`. -/
def Instr.withOperands (i : Instr) (c : Command) : Instr :=
  match i with
  | .seed1 _ => .seed1 c.w0
  | .seed2 _ _ => .seed2 c.w0 c.w1
  | .seed4 _ _ _ _ => .seed4 c.w0 c.w1 c.w2 c.w3
  | .seedW _ => .seedW (wideOf c.w0 c.w1)
  | .seedWI _ _ => .seedWI (wideOf c.w0 c.w1) (wideOf c.w2 c.w3)
  | .setState len _ _ _ _ => .setState len c.w0 c.w1 c.w2 c.w3
  | .integerU _ => .integerU c.w0
  | .integerS _ => .integerS (wideOf c.w0 c.w1)
  | .seedRnd => .seedRnd
  | .getState => .getState
  | .next32 => .next32
  | .integerRaw => .integerRaw
  | .number => .number

/-- A command carries an instruction: the instruction is well-formed, the command word is that of its encoding, and its
operands are those the operand words spell. -/
structure Command.Carries (c : Command) (i : Instr) : Prop where
  wellFormed : i.wellFormed = true
  word : (encode i).cw = c.cw
  operands : i.withOperands c = i

/-- An encoding carries the operands it was made from: a wide one is put together again from its halves. -/
theorem withOperands_encode (i : Instr) : i.withOperands (encode i) = i := by
  cases i with
  | seedW | seedWI | integerS => simp [Instr.withOperands, encode]
  | _ => rfl

/-- The operands have no part in the command word (R51). -/
theorem encode_withOperands_cw (i : Instr) (c : Command) : (encode (i.withOperands c)).cw = (encode i).cw := by
  cases i <;> rfl

/-- The command word of a well-formed instruction decodes to its form, with the operands the other words spell. -/
theorem decode_of_word {i : Instr} {c : Command} (hwf : i.wellFormed = true) (hcw : (encode i).cw = c.cw) :
    decode c = .ok (i.withOperands c) := by
  obtain ⟨cw, w0, w1, w2, w3⟩ := c
  obtain rfl : (encode i).cw = cw := hcw
  cases i with
  | setState len =>
    have hlen : len ≤ 7 := of_decide_eq_true hwf
    obtain ⟨hop, ht, hn, hrsv⟩ := commandWord_fields (op := 2) (t := 0) (n := len) (by omega) (by omega) (by omega)
    simp [decode, encode, hop, ht, hn, hrsv, decodeSetState, Instr.withOperands]
  | _ =>
    dsimp only [encode]
    rfl

/-- Each defined pair of type and count is that of the instruction answered; every other pair is refused (R52). -/
theorem decodeSeed_carries {t n : Nat} {c : Command} {i : Instr} (hcw : commandWord 1 t n = c.cw)
    (h : decodeSeed t n c = .ok i) : c.Carries i := by
  unfold decodeSeed at h
  split at h <;> cases h <;> exact ⟨rfl, hcw, rfl⟩

/-- `SETSTATE` takes its length from the count, so a count in range makes it well-formed (R52, I13). -/
theorem decodeSetState_carries {t n : Nat} {c : Command} {i : Instr} (hn : n ≤ 7) (hcw : commandWord 2 t n = c.cw)
    (h : decodeSetState t n c = .ok i) : c.Carries i := by
  unfold decodeSetState at h
  split at h
  next ht =>
    subst ht
    cases h
    exact ⟨decide_eq_true hn, hcw, rfl⟩
  next => cases h

/-- Each defined pair of type and count is that of the instruction answered; every other pair is refused (R52). -/
theorem decodeInteger_carries {t n : Nat} {c : Command} {i : Instr} (hcw : commandWord 5 t n = c.cw)
    (h : decodeInteger t n c = .ok i) : c.Carries i := by
  unfold decodeInteger at h
  split at h <;> cases h <;> exact ⟨rfl, hcw, rfl⟩

/-- A command without arguments is carried by the word of its opcode alone (R52). -/
theorem decodePlain_carries {op t n : Nat} {c : Command} {i j : Instr} (h : decodePlain t n j = .ok i)
    (hcw : commandWord op t n = c.cw) (hj : commandWord op 0 0 = c.cw → c.Carries j) : c.Carries i := by
  unfold decodePlain at h
  split at h
  next hzero =>
    obtain ⟨rfl, rfl⟩ := hzero
    cases h
    exact hj hcw
  next => cases h

/-- What decodes is carried by the command: by the decoder's own case split on the opcode, each case by its lemma above. -/
theorem carries_of_decode {c : Command} {i : Instr} (h : decode c = .ok i) : c.Carries i := by
  obtain ⟨cw, w0, w1, w2, w3⟩ := c
  simp only [decode] at h
  split at h
  next => cases h
  next hrsv =>
    have hcw := commandWord_of_fields (of_not_not hrsv)
    split at h
    next hop => exact decodeSeed_carries (hop ▸ hcw) h
    next hop => exact decodeSetState_carries (fieldN_le cw) (hop ▸ hcw) h
    next hop => exact decodePlain_carries h (hop ▸ hcw) fun hw => ⟨rfl, hw, rfl⟩
    next hop => exact decodePlain_carries h (hop ▸ hcw) fun hw => ⟨rfl, hw, rfl⟩
    next hop => exact decodeInteger_carries (hop ▸ hcw) h
    next hop => exact decodePlain_carries h (hop ▸ hcw) fun hw => ⟨rfl, hw, rfl⟩
    next => cases h

/-- Decoding answers exactly the instruction the command carries (R48, R51, R52). -/
theorem decode_eq_ok_iff {c : Command} {i : Instr} : decode c = .ok i ↔ c.Carries i :=
  ⟨carries_of_decode, fun h => (decode_of_word h.wellFormed h.word).trans (congrArg _ h.operands)⟩

/-- Settles O54: an encoding carries its instruction, `withOperands_encode` being the only clause with content. -/
theorem decodeAfterEncode : Obligations.DecodeAfterEncode :=
  fun i hwf => decode_eq_ok_iff.2 ⟨hwf, rfl, withOperands_encode i⟩

/-- Settles O55: two clauses of what `decode_eq_ok_iff` says of the instruction decoded. -/
theorem encodeAfterDecode : Obligations.EncodeAfterDecode := by
  intro c i h
  obtain ⟨hwf, hcw, -⟩ := decode_eq_ok_iff.1 h
  exact ⟨hwf, hcw⟩

/-- Settles O58: each word evaluates to its instruction or to the reason it is illegal. -/
theorem decodeSampleWords : Obligations.DecodeSampleWords :=
  ⟨rfl, rfl, rfl, rfl, rfl, rfl, rfl, rfl⟩

/-! ### The twenty command words -/

/-- The forms of the opcode map (R51, R52), one per command word, their operands 0. -/
def tableForms : List Instr :=
  [.seedRnd, .seed1 0, .seed2 0 0, .seed4 0 0 0 0, .seedW 0, .seedWI 0 0,
    .setState 0 0 0 0 0, .setState 1 0 0 0 0, .setState 2 0 0 0 0, .setState 3 0 0 0 0,
    .setState 4 0 0 0 0, .setState 5 0 0 0 0, .setState 6 0 0 0 0, .setState 7 0 0 0 0,
    .getState, .next32, .integerRaw, .integerU 0, .integerS 0, .number]

/-- The command words of the forms, each evaluated to its number (R51). -/
theorem words_tableForms :
    tableForms.map (fun i => (encode i).cw) =
      [0x01, 0x11, 0x21, 0x41, 0x91, 0xA1] ++ [0x02, 0x12, 0x22, 0x32, 0x42, 0x52, 0x62, 0x72] ++
        [0x03, 0x04, 0x05, 0x15, 0x95, 0x06] := by decide

/-- Every form of the table is well-formed. -/
theorem wellFormed_of_mem_tableForms : ∀ i ∈ tableForms, i.wellFormed = true := by decide

/-- Every well-formed instruction is a form of the table but for its operands. -/
theorem withOperands_zero_mem_tableForms {i : Instr} (hwf : i.wellFormed = true) :
    i.withOperands ⟨0, 0, 0, 0, 0⟩ ∈ tableForms := by
  cases i with
  | setState len =>
    have hlen : len ≤ 7 := of_decide_eq_true hwf
    have hall : ∀ n < 8, Instr.setState n 0 0 0 0 ∈ tableForms := by decide
    exact hall len (by omega)
  | _ =>
    dsimp only [Instr.withOperands]
    decide

/-- A command decodes exactly when its word is that of a form of the table: the operand words have no say in it. -/
theorem decodes_iff_mem_words (c : Command) :
    (∃ i, decode c = .ok i) ↔ c.cw ∈ tableForms.map fun i => (encode i).cw := by
  rw [List.mem_map]
  constructor
  · rintro ⟨i, h⟩
    obtain ⟨hwf, hcw, -⟩ := decode_eq_ok_iff.1 h
    exact ⟨_, withOperands_zero_mem_tableForms hwf, (encode_withOperands_cw i _).trans hcw⟩
  · rintro ⟨i, hi, hcw⟩
    exact ⟨_, decode_of_word (wellFormed_of_mem_tableForms i hi) hcw⟩

/-- Settles O56: the words of the table's forms are the twenty listed. -/
theorem onlyTableWordsDecode : Obligations.OnlyTableWordsDecode := by
  intro c
  rw [decodes_iff_mem_words, words_tableForms]

/-! ### The operand words a command uses -/

/-- How many operand words the fields of a command word announce, a `SETSTATE` that faults taking none (R47, R49): the number
`Obligations.UnusedOperandWordsAreIgnored` writes out. -/
def usedOfWord (cw : Word) : Nat :=
  if fieldOp cw = 2 ∧ fieldN cw ≠ 4 then 0 else if fieldT cw = 0 then fieldN cw else 2 * fieldN cw

/-- How many operand words an instruction reads (R49). `usedOfWord_encode` and `exec_withOperands_congr` tie it to the encoding
and to `exec`. -/
def Instr.usedWords : Instr → Nat
  | .setState len _ _ _ _ => if len = 4 then 4 else 0
  | .seed4 _ _ _ _ | .seedWI _ _ => 4
  | .seed2 _ _ | .seedW _ | .integerS _ => 2
  | .seed1 _ | .integerU _ => 1
  | .seedRnd | .getState | .next32 | .integerRaw | .number => 0

/-- The command word of a well-formed instruction announces the number of words the instruction reads. -/
theorem usedOfWord_encode {i : Instr} (hwf : i.wellFormed = true) : usedOfWord (encode i).cw = i.usedWords := by
  cases i with
  | setState len =>
    have hlen : len ≤ 7 := of_decide_eq_true hwf
    obtain ⟨hop, ht, hn, -⟩ := commandWord_fields (op := 2) (t := 0) (n := len) (by omega) (by omega) (by omega)
    simp only [usedOfWord, encode, Instr.usedWords, hop, ht, hn]
    by_cases h4 : len = 4 <;> simp [h4]
  | _ =>
    dsimp only [encode, Instr.usedWords]
    decide

/-- The first `n` operand words of two commands agree. -/
structure Command.AgreeOn (n : Nat) (c d : Command) : Prop where
  w0 : 0 < n → c.w0 = d.w0
  w1 : 1 < n → c.w1 = d.w1
  w2 : 2 < n → c.w2 = d.w2
  w3 : 3 < n → c.w3 = d.w3

theorem Command.AgreeOn.two {c d : Command} (h : c.AgreeOn 2 d) : c.w0 = d.w0 ∧ c.w1 = d.w1 :=
  ⟨h.w0 (by decide), h.w1 (by decide)⟩

theorem Command.AgreeOn.four {c d : Command} (h : c.AgreeOn 4 d) :
    c.w0 = d.w0 ∧ c.w1 = d.w1 ∧ c.w2 = d.w2 ∧ c.w3 = d.w3 :=
  ⟨h.w0 (by decide), h.w1 (by decide), h.w2 (by decide), h.w3 (by decide)⟩

/-- Running an instruction with the operands of either of two commands is the same when they agree on the words it reads: it
is the same instruction, or a `SETSTATE` refused either way (R49, R77). -/
theorem exec_withOperands_congr (i : Instr) {c d : Command} (h : c.AgreeOn i.usedWords d) (s : State) :
    exec (i.withOperands c) s = exec (i.withOperands d) s := by
  cases i with
  | setState len =>
    by_cases hlen : len = 4
    · subst hlen
      obtain ⟨h0, h1, h2, h3⟩ := Command.AgreeOn.four h
      simp only [Instr.withOperands, h0, h1, h2, h3]
    · exact (if_pos hlen).trans (if_pos hlen).symm
  | seedRnd | getState | next32 | integerRaw | number => rfl
  | seed1 | integerU =>
    have h0 : c.w0 = d.w0 := h.w0 Nat.one_pos
    simp only [Instr.withOperands, h0]
  | seed2 | seedW | integerS =>
    obtain ⟨h0, h1⟩ := Command.AgreeOn.two h
    simp only [Instr.withOperands, h0, h1]
  | seed4 | seedWI =>
    obtain ⟨h0, h1, h2, h3⟩ := Command.AgreeOn.four h
    simp only [Instr.withOperands, h0, h1, h2, h3]

/-- Whether a command decodes depends on its command word alone (R52). -/
theorem decode_error_of_same_word {c d : Command} {e : Illegal} (hcw : c.cw = d.cw) (h : decode c = .error e) :
    ∃ e', decode d = .error e' := by
  cases hd : decode d with
  | error e' => exact ⟨e', rfl⟩
  | ok i =>
    obtain ⟨hwf, hword, -⟩ := decode_eq_ok_iff.1 hd
    cases h.symm.trans (decode_of_word hwf (hword.trans hcw.symm))

/-- Settles O57: both commands are illegal, or both decode to the same form, whose two executions are the same by
`exec_withOperands_congr`. -/
theorem unusedOperandWordsAreIgnored : Obligations.UnusedOperandWordsAreIgnored := by
  intro s rest c d used hcw hused h0 h1 h2 h3
  cases hc : decode c with
  | error e =>
    obtain ⟨e', hd⟩ := decode_error_of_same_word hcw hc
    rw [step_of_illegal rfl hc, step_of_illegal rfl hd]
  | ok i =>
    obtain ⟨hwf, hword, hoperands⟩ := decode_eq_ok_iff.1 hc
    have hd : decode d = .ok (i.withOperands d) := decode_of_word hwf (hword.trans hcw)
    have hagree : c.AgreeOn i.usedWords d := by
      have hcount : used = i.usedWords := by rw [← usedOfWord_encode hwf, hword, hused, usedOfWord]
      exact hcount ▸ ⟨h0, h1, h2, h3⟩
    rw [step_of_decoded rfl hc, step_of_decoded rfl hd]
    exact (congrArg (exec · _) hoperands).symm.trans (exec_withOperands_congr i hagree _)

end Sys2Proof

namespace Sys2Proof.Machine

/-! ### Literals in range -/

theorem literalWord_of_lt {n : Nat} (h : n < 2 ^ 32) : literalWord n = some (BitVec.ofNat 32 n) := if_pos h

theorem literalWide_of_lt {n : Nat} (h : n < 2 ^ 64) : literalWide n = some (BitVec.ofNat 64 n) := if_pos h

theorem literalSigned_of_range {n : Int} (hlo : -2 ^ 63 ≤ n) (hhi : n < 2 ^ 64) :
    literalSigned n = some (BitVec.ofInt 64 n) := if_pos ⟨hlo, hhi⟩

/-- An element `SETSTATE` sends is one of the first four of the list, or 0 past its end. -/
theorem elementWord_of_lt {elems : List Nat} {k : Nat} (hk : k < 4) (h : ∀ e ∈ elems.take 4, e < 2 ^ 32) :
    elementWord elems k = some (BitVec.ofNat 32 (elems.getD k 0)) := by
  refine literalWord_of_lt ?_
  by_cases hlen : k < elems.length
  · rw [List.getD_eq_getElem _ _ hlen]
    exact h _ (List.mem_take_iff_getElem.2 ⟨k, by omega, rfl⟩)
  · rw [List.getD_eq_default _ _ (by omega)]
    decide

/-- The low half of a literal (R14, R55). -/
theorem lo32_ofNat (n : Nat) : lo32 (BitVec.ofNat 64 n) = BitVec.ofNat 32 (n % 2 ^ 32) := by
  apply BitVec.eq_of_toNat_eq
  rw [lo32_toNat, BitVec.toNat_ofNat, BitVec.toNat_ofNat]
  omega

/-- The high half of a literal in range (R14, R55). -/
theorem hi32_ofNat {n : Nat} (h : n < 2 ^ 64) : hi32 (BitVec.ofNat 64 n) = BitVec.ofNat 32 (n / 2 ^ 32) := by
  apply BitVec.eq_of_toNat_eq
  rw [hi32_toNat, BitVec.toNat_ofNat, BitVec.toNat_ofNat]
  omega

/-- Two's complement on 64 bits, as arithmetic (R15). -/
theorem ofInt_eq_ofNat_emod (n : Int) : BitVec.ofInt 64 n = BitVec.ofNat 64 (n % 2 ^ 64).toNat := by
  apply BitVec.eq_of_toNat_eq
  rw [BitVec.toNat_ofInt, BitVec.toNat_ofNat]
  omega

/-- The signed reading of a wide operand is the library's (R15). -/
theorem signedWide_eq_toInt (v : Wide) : signedWide v = v.toInt := by
  rw [signedWide, BitVec.toInt_eq_msb_cond, BitVec.msb_eq_getLsbD_last]
  rfl

/-! ### What a line assembles to -/

theorem assemble_integerU {max : Nat} (h : max < 2 ^ 32) :
    (ScriptLine.integerU max).assemble = some (encode (.integerU (BitVec.ofNat 32 max))) := by
  simp only [ScriptLine.assemble, literalWord_of_lt h]
  rfl

theorem assemble_integerS {max : Int} (hlo : -2 ^ 63 ≤ max) (hhi : max < 2 ^ 64) :
    (ScriptLine.integerS max).assemble = some (encode (.integerS (BitVec.ofInt 64 max))) := by
  simp only [ScriptLine.assemble, literalSigned_of_range hlo hhi]
  rfl

theorem assemble_setState {elems : List Nat} (hlen : elems.length ≤ 7) (h : ∀ e ∈ elems.take 4, e < 2 ^ 32) :
    (ScriptLine.setState elems).assemble =
      some (encode (.setState elems.length (BitVec.ofNat 32 (elems.getD 0 0)) (BitVec.ofNat 32 (elems.getD 1 0))
        (BitVec.ofNat 32 (elems.getD 2 0)) (BitVec.ofNat 32 (elems.getD 3 0)))) := by
  have hword {k : Nat} (hk : k < 4) := elementWord_of_lt hk h
  simp only [ScriptLine.assemble, if_pos hlen, hword (k := 0) (by decide), hword (k := 1) (by decide),
    hword (k := 2) (by decide), hword (k := 3) (by decide)]
  rfl

/-- If there is a command, it is the encoding of a well-formed instruction. -/
def Encodes (r : Option Command) : Prop := ∀ c, r = some c → ∃ i : Instr, i.wellFormed = true ∧ encode i = c

theorem encodes_encode {i : Instr} (hwf : i.wellFormed = true) : Encodes (some (encode i)) := by
  rintro c ⟨⟩
  exact ⟨i, hwf, rfl⟩

theorem encodes_bind {α : Type} {x : Option α} {f : α → Option Command} (h : ∀ a, Encodes (f a)) : Encodes (x >>= f) := by
  intro c hc
  obtain ⟨a, -, ha⟩ := Option.bind_eq_some_iff.1 hc
  exact h a c ha

/-- Whatever a line assembles to is the encoding of a well-formed instruction (R55, I13). -/
theorem assemble_encodes (line : ScriptLine) : Encodes line.assemble := by
  cases line with
  | seedRnd | getState | next32 | integerRaw | number => exact encodes_encode rfl
  | seed1 | seedW | integerU | integerS => exact encodes_bind fun _ => encodes_encode rfl
  | seed2 | seedWI => exact encodes_bind fun _ => encodes_bind fun _ => encodes_encode rfl
  | seed4 =>
    exact encodes_bind fun _ => encodes_bind fun _ => encodes_bind fun _ => encodes_bind fun _ => encodes_encode rfl
  | setState elems =>
    by_cases hlen : elems.length ≤ 7
    · rw [ScriptLine.assemble, if_pos hlen]
      exact encodes_bind fun _ => encodes_bind fun _ => encodes_bind fun _ => encodes_bind fun _ =>
        encodes_encode (decide_eq_true hlen)
    · rw [ScriptLine.assemble, if_neg hlen]
      nofun

/-- Settles O59: the literals in range give the operands of the encoding, the wide ones in halves; the last clause is
`assemble_encodes` with O54. -/
theorem assembledLinesDecode : Obligations.AssembledLinesDecode := by
  refine ⟨⟨rfl, rfl, rfl, rfl, rfl⟩, ?seed1, ?seed2, ?seed4, ?seedW, ?seedWI, ?setState, ?tooLong, ?integerU, ?integerS,
    ?roundTrip⟩
  case seed1 =>
    intro lo hlo
    simp only [ScriptLine.assemble, literalWord_of_lt hlo]
    rfl
  case seed2 =>
    intro lo hlo hi hhi
    simp only [ScriptLine.assemble, literalWord_of_lt hlo, literalWord_of_lt hhi]
    rfl
  case seed4 =>
    intro lo hlo hi hhi incLo hincLo incHi hincHi
    simp only [ScriptLine.assemble, literalWord_of_lt hlo, literalWord_of_lt hhi, literalWord_of_lt hincLo,
      literalWord_of_lt hincHi]
    rfl
  case seedW =>
    intro seed hseed
    simp only [ScriptLine.assemble, literalWide_of_lt hseed, ← lo32_ofNat, ← hi32_ofNat hseed]
    rfl
  case seedWI =>
    intro seed hseed inc hinc
    simp only [ScriptLine.assemble, literalWide_of_lt hseed, literalWide_of_lt hinc, ← lo32_ofNat, ← hi32_ofNat hseed,
      ← hi32_ofNat hinc]
    rfl
  case setState => exact fun elems hlen h => assemble_setState hlen h
  case tooLong => exact fun elems hlen => if_neg (by omega)
  case integerU => exact fun max h => assemble_integerU h
  case integerS =>
    rintro max u hlo hhi rfl
    have hu : (max % 2 ^ 64).toNat < 2 ^ 64 := by omega
    simp only [assemble_integerS hlo hhi, ofInt_eq_ofNat_emod, ← lo32_ofNat, ← hi32_ofNat hu]
    rfl
  case roundTrip =>
    intro line c h
    obtain ⟨i, hwf, rfl⟩ := assemble_encodes line c h
    exact ⟨i, decodeAfterEncode i hwf, hwf, rfl⟩

/-! ### `integer(m)` -/

/-- Settles O60: the test of `expand` selects the form, and a signed 64-bit value is read back from its two's complement. -/
theorem pseudoIntegerPicksForm : Obligations.PseudoIntegerPicksForm := by
  intro m
  constructor
  · intro hlo hhi
    refine ⟨if_pos ⟨hlo, hhi⟩, ?_⟩
    lift m to Nat using hlo
    exact assemble_integerU (by omega)
  · intro hm
    have hform : ¬(0 ≤ m ∧ m ≤ 0xFFFFFFFF) := by omega
    have hrange : -2 ^ 63 ≤ m ∧ m < 2 ^ 63 := by omega
    refine ⟨(if_neg hform).trans (if_pos hrange), _, assemble_integerS hrange.1 (by omega), ?_⟩
    rw [signedWide_eq_toInt, BitVec.toInt_ofInt_eq_self (by decide) hrange.1 hrange.2]

end Sys2Proof.Machine
end

section
/-! SUPPORT. Proofs of the family of spec/40_wide_arith.md: each functional unit as arithmetic on numbers, and one lemma on
the carry between two halves (`wideOf_toNat_of_carry`), from which every halved form equals its wide form. -/

namespace Sys2Proof.Machine

/-! ### The wide units as arithmetic -/

@[simp] theorem add64_toNat (a b : Wide) : (add64 a b).toNat = (a.toNat + b.toNat) % 2 ^ 64 := BitVec.toNat_add a b

@[simp] theorem mul64_toNat (a b : Wide) : (mul64 a b).toNat = (a.toNat * b.toNat) % 2 ^ 64 := BitVec.toNat_mul a b

/-- The increment shifter at any width: the bit put into the place the shift frees is added. -/
theorem shiftLeft_one_or_toNat {w : Nat} (x b : BitVec w) (hb : b.toNat < 2) :
    (x <<< 1 ||| b).toNat = (2 * x.toNat + b.toNat) % 2 ^ w :=
  calc (x <<< 1 ||| b).toNat
    _ = (2 ^ 1 * x.toNat ||| b.toNat) % 2 ^ w := by
      rw [Nat.or_mod_two_pow, Nat.mod_eq_of_lt b.isLt, BitVec.toNat_or, BitVec.toNat_shiftLeft, Nat.shiftLeft_eq,
        Nat.mul_comm]
    _ = (2 * x.toNat + b.toNat) % 2 ^ w := by rw [← Nat.two_pow_add_eq_or_of_lt hb, Nat.pow_one]

@[simp] theorem incXform_toNat (u : Wide) : (incXform u).toNat = (2 * u.toNat + 1) % 2 ^ 64 :=
  shiftLeft_one_or_toNat u 1 (by decide)

/-- Bits 63..1 of the transform are bits 62..0 of `u` (R64). -/
theorem incXform_getLsbD_succ (u : Wide) {i : Nat} (hi : i < 63) : (incXform u).getLsbD (i + 1) = u.getLsbD i := by
  have hlt : i + 1 < 64 := by omega
  simp [incXform, hlt, BitVec.getLsbD_eq_getElem (Nat.lt_of_succ_lt hlt)]

/-- Bit 63 of `u` is shifted out: it has no part in the transform (R64). -/
theorem incXform_congr {u w : Wide} (h : ∀ i < 63, w.getLsbD i = u.getLsbD i) : incXform w = incXform u := by
  refine BitVec.eq_of_getLsbD_eq fun i hi => ?_
  cases i with
  | zero => rw [incXform_odd, incXform_odd]
  | succ i =>
    have hi' : i < 63 := by omega
    rw [incXform_getLsbD_succ w hi', incXform_getLsbD_succ u hi', h i hi']

/-! ### The halved units -/

/-- What overflows the low half, added into the high half, makes the pair one wide number; what overflows the high half is
dropped (R61, R63, R65). -/
theorem wideOf_toNat_of_carry {lo hi : Word} {m n : Nat} (hlo : lo.toNat = n % 2 ^ 32)
    (hhi : hi.toNat = (m + n / 2 ^ 32) % 2 ^ 32) : (wideOf lo hi).toNat = (2 ^ 32 * m + n) % 2 ^ 64 := by
  rw [wideOf_toNat, hlo, hhi]
  omega

theorem add64Halved_fst_toNat (aLo aHi bLo bHi : Word) :
    (add64Halved aLo aHi bLo bHi).1.toNat = (aLo.toNat + bLo.toNat) % 2 ^ 32 := BitVec.toNat_ofNat _ _

theorem add64Halved_snd_toNat (aLo aHi bLo bHi : Word) : (add64Halved aLo aHi bLo bHi).2.toNat =
    (aHi.toNat + bHi.toNat + (aLo.toNat + bLo.toNat) / 2 ^ 32) % 2 ^ 32 := BitVec.toNat_ofNat _ _

theorem wideOf_add64Halved (aLo aHi bLo bHi : Word) :
    wideOf (add64Halved aLo aHi bLo bHi).1 (add64Halved aLo aHi bLo bHi).2 = add64 (wideOf aLo aHi) (wideOf bLo bHi) := by
  apply BitVec.eq_of_toNat_eq
  rw [wideOf_toNat_of_carry (add64Halved_fst_toNat ..) (add64Halved_snd_toNat ..), add64_toNat, wideOf_toNat, wideOf_toNat]
  congr 1
  ring

theorem mul64Halved_fst_toNat (aLo aHi bLo bHi : Word) :
    (mul64Halved aLo aHi bLo bHi).1.toNat = (aLo.toNat * bLo.toNat) % 2 ^ 32 := BitVec.toNat_ofNat _ _

theorem mul64Halved_snd_toNat (aLo aHi bLo bHi : Word) : (mul64Halved aLo aHi bLo bHi).2.toNat =
    (aLo.toNat * bLo.toNat / 2 ^ 32 + aLo.toNat * bHi.toNat % 2 ^ 32 + aHi.toNat * bLo.toNat % 2 ^ 32) % 2 ^ 32 :=
  BitVec.toNat_ofNat _ _

/-- The product of two numbers in halves: `aHi * bHi` has weight 2^64 and contributes nothing (R63). -/
theorem halves_mul_mod (aLo aHi bLo bHi : Nat) : (2 ^ 32 * aHi + aLo) * (2 ^ 32 * bHi + bLo) % 2 ^ 64 =
    (2 ^ 32 * (aLo * bHi + aHi * bLo) + aLo * bLo) % 2 ^ 64 := by
  have hexpand : (2 ^ 32 * aHi + aLo) * (2 ^ 32 * bHi + bLo) =
      2 ^ 32 * (aLo * bHi + aHi * bLo) + aLo * bLo + 2 ^ 64 * (aHi * bHi) := by ring
  rw [hexpand, Nat.add_mul_mod_self_left]

theorem wideOf_mul64Halved (aLo aHi bLo bHi : Word) :
    wideOf (mul64Halved aLo aHi bLo bHi).1 (mul64Halved aLo aHi bLo bHi).2 = mul64 (wideOf aLo aHi) (wideOf bLo bHi) := by
  have hhi : (mul64Halved aLo aHi bLo bHi).2.toNat =
      (aLo.toNat * bHi.toNat + aHi.toNat * bLo.toNat + aLo.toNat * bLo.toNat / 2 ^ 32) % 2 ^ 32 := by
    rw [mul64Halved_snd_toNat]
    omega
  apply BitVec.eq_of_toNat_eq
  rw [wideOf_toNat_of_carry (mul64Halved_fst_toNat ..) hhi, mul64_toNat, wideOf_toNat, wideOf_toNat, halves_mul_mod]

theorem incXformHalved_fst_toNat (uLo uHi : Word) :
    (incXformHalved uLo uHi).1.toNat = (2 * uLo.toNat + 1) % 2 ^ 32 := shiftLeft_one_or_toNat uLo 1 (by decide)

/-- Bit 31 of the low half is what `2 * uLo + 1` carries out of its 32 bits (R65). -/
theorem incXformHalved_snd_toNat (uLo uHi : Word) :
    (incXformHalved uLo uHi).2.toNat = (2 * uHi.toNat + (2 * uLo.toNat + 1) / 2 ^ 32) % 2 ^ 32 := by
  have hlt := uLo.isLt
  have hbit : (uLo >>> 31).toNat = (2 * uLo.toNat + 1) / 2 ^ 32 := by
    rw [BitVec.toNat_ushiftRight, Nat.shiftRight_eq_div_pow]
    omega
  rw [← hbit]
  exact shiftLeft_one_or_toNat uHi (uLo >>> 31) (by omega)

theorem incXformHalved_snd_getLsbD_zero (uLo uHi : Word) :
    (incXformHalved uLo uHi).2.getLsbD 0 = uLo.getLsbD 31 := by simp [incXformHalved]

theorem wideOf_incXformHalved (uLo uHi : Word) :
    wideOf (incXformHalved uLo uHi).1 (incXformHalved uLo uHi).2 = incXform (wideOf uLo uHi) := by
  apply BitVec.eq_of_toNat_eq
  rw [wideOf_toNat_of_carry (incXformHalved_fst_toNat ..) (incXformHalved_snd_toNat ..), incXform_toNat, wideOf_toNat]
  congr 1
  ring

/-! ### The obligations of the functional units -/

/-- Settles O10: `ADD64` is the addition of the ring of 64-bit words. -/
theorem adderIsModular : Obligations.AdderIsModular :=
  ⟨add64_toNat, BitVec.add_comm, BitVec.add_assoc, BitVec.add_zero⟩

/-- Settles O11: the sum of the low halves overflows by the carry (`wideOf_toNat_of_carry`). -/
theorem halvedAdderEqualsWide : Obligations.HalvedAdderEqualsWide := fun aLo aHi bLo bHi =>
  ⟨add64Halved_fst_toNat aLo aHi bLo bHi, add64Halved_snd_toNat aLo aHi bLo bHi, wideOf_add64Halved aLo aHi bLo bHi⟩

/-- Settles O12: `MUL64` is the multiplication of the ring of 64-bit words. -/
theorem multiplierUnitIsModular : Obligations.MultiplierUnitIsModular :=
  ⟨mul64_toNat, BitVec.mul_comm, BitVec.mul_assoc, fun _ _ _ => BitVec.mul_add, BitVec.mul_one, fun _ => BitVec.mul_zero⟩

/-- Settles O13: the cross products have weight 2^32, so only their low halves count, and `aHi * bHi` is lost
(`halves_mul_mod`). -/
theorem halvedMultiplierEqualsWide : Obligations.HalvedMultiplierEqualsWide := fun aLo aHi bLo bHi =>
  ⟨mul64Halved_fst_toNat aLo aHi bLo bHi, mul64Halved_snd_toNat aLo aHi bLo bHi, wideOf_mul64Halved aLo aHi bLo bHi⟩

/-- Settles O14: the shift frees bit 0, which is set, and loses bit 63. -/
theorem incrementTransformShiftsAndSetsLowBit : Obligations.IncrementTransformShiftsAndSetsLowBit := fun u =>
  ⟨incXform_toNat u, incXform_odd u, fun _ hi => incXform_getLsbD_succ u hi, fun _ h => incXform_congr h⟩

/-- Settles O15: bit 31 of the low half is the carry into the high half. -/
theorem halvedIncrementTransformEqualsWide : Obligations.HalvedIncrementTransformEqualsWide := fun uLo uHi =>
  ⟨incXformHalved_snd_getLsbD_zero uLo uHi, wideOf_incXformHalved uLo uHi⟩

end Sys2Proof.Machine
end

section
/-! SUPPORT. Proofs of the family of spec/41_seeding.md: each seeding command, `SETSTATE` and `GETSTATE` as a whole next state,
and the round trip of an exported state, which rests on one congruence: what a command other than `SEED.RND` answers depends
on `STATE`, `INC` and `SEEDED` alone (`exec_answersAlike`). -/

namespace Sys2Proof.Machine

/-! ### The seeding procedure and the seeding commands -/

/-- The step function as arithmetic (R82). -/
theorem stepFn_toNat (s c : Wide) : (stepFn s c).toNat = (s.toNat * 0x5851F42D4C957F2D + c.toNat) % 2 ^ 64 := by
  have hmul : multiplier.toNat = 0x5851F42D4C957F2D := rfl
  rw [stepFn, add64_toNat, mul64_toNat, hmul]
  omega

/-- Settles O22: `seedCore_eq` is the closed form on wide words, and reducing the sum `INC + seed` before the step changes
nothing modulo 2^64. -/
theorem seedCoreClosedForm : Obligations.SeedCoreClosedForm := by
  refine fun seed s => ⟨_, ?_, seedCore_eq seed s⟩
  rw [stepFn_toNat, BitVec.toNat_add]
  omega

/-- Settles O23: the seed is drawn in two words, and the seeding ends in its closed form. -/
theorem seedRndResult : Obligations.SeedRndResult := by
  refine ⟨fun _ _ _ _ => decode_eq_ok_iff.2 ⟨rfl, rfl, rfl⟩, ?_⟩
  rintro s lo hi rfl rfl
  exact respondDone_seedCore _ _

/-- Settles O24: the seeding of the word extended with zeros, in its closed form. -/
theorem seed1Result : Obligations.Seed1Result :=
  ⟨fun _ _ _ _ => decode_eq_ok_iff.2 ⟨rfl, rfl, rfl⟩, fun _ _ => respondDone_seedCore _ _⟩

/-- Settles O25: the seeding of the two words, in its closed form. -/
theorem seed2Result : Obligations.Seed2Result :=
  ⟨fun _ _ _ _ => decode_eq_ok_iff.2 ⟨rfl, rfl, rfl⟩, fun _ _ _ => respondDone_seedCore _ _⟩

/-- Settles O26: the closed form of the seeding, from the state that holds the new increment. -/
theorem seed4Result : Obligations.Seed4Result := by
  refine ⟨fun _ _ _ _ => decode_eq_ok_iff.2 ⟨rfl, rfl, rfl⟩, ?_⟩
  rintro s lo hi incLo incHi c rfl
  exact respondDone_seedCore _ _

/-- Settles O27: the seeding of the wide operand, in its closed form. -/
theorem seedWResult : Obligations.SeedWResult :=
  ⟨fun _ _ _ _ => decode_eq_ok_iff.2 ⟨rfl, rfl, rfl⟩, fun _ _ => respondDone_seedCore _ _⟩

/-- Settles O28: the closed form of the seeding, from the state that holds the new increment. -/
theorem seedWIResult : Obligations.SeedWIResult := by
  refine ⟨fun _ _ _ _ => decode_eq_ok_iff.2 ⟨rfl, rfl, rfl⟩, ?_⟩
  rintro s seed inc c rfl
  exact respondDone_seedCore _ _

/-- A word extended with zeros is the wide word with high half 0 (R48, R71). -/
theorem setWidth_eq_wideOf_zero (lo : Word) : lo.setWidth 64 = wideOf lo 0 := by
  apply BitVec.eq_of_toNat_eq
  have hlo := lo.isLt
  rw [wideOf_toNat, BitVec.toNat_setWidth]
  simp only [BitVec.ofNat_eq_ofNat, BitVec.toNat_ofNat]
  omega

/-- Settles O29: the forms run one procedure on the assembled seed; for `SEED.1` the seed is that of `SEED.2` by
`setWidth_eq_wideOf_zero`. -/
theorem seedingFormsAreEquivalent : Obligations.SeedingFormsAreEquivalent := fun s lo _ _ _ =>
  ⟨congrArg (fun seed => respondDone (seedCore seed s)) (setWidth_eq_wideOf_zero lo), rfl, rfl⟩

/-! ### `SETSTATE` and `GETSTATE` -/

/-- A `SETSTATE` of four elements completes with the registers they spell (R77). -/
theorem exec_setState_four (e0 e1 e2 e3 : Word) (s : State) :
    exec (.setState 4 e0 e1 e2 e3) s = .next (s.completed (wideOf e0 e1) (wideOf e2 e3 ||| 1) 0) := rfl

/-- Once seeded, `GETSTATE` delivers the exported words and does nothing else (R78). -/
theorem exec_getState_of_seeded {s : State} (hs : s.seeded = true) :
    exec .getState s = .next (s.deliver s.exportWords) := whenSeeded_of_seeded hs _

/-- Settles O30: the two branches of the length check. -/
theorem setStateResult : Obligations.SetStateResult := by
  refine ⟨fun n hn _ _ _ _ => decode_eq_ok_iff.2 ⟨decide_eq_true (by omega), rfl, rfl⟩, fun s e0 e1 e2 e3 => ?_⟩
  exact ⟨exec_setState_four e0 e1 e2 e3 s, fun n hn => if_pos hn⟩

/-- Settles O31: the two branches of the lifecycle check. -/
theorem getStateResult : Obligations.GetStateResult :=
  ⟨fun _ _ _ _ => decode_eq_ok_iff.2 ⟨rfl, rfl, rfl⟩, fun _ => ⟨exec_getState_of_seeded, exec_of_unseeded rfl⟩⟩

/-! ### Equal registers, equal answers

`SameRegs` leaves the queues, the responses delivered before and the counters of the two states free. -/

/-- If `x`, a result reached from `a`, is a next state, so is `y`, reached from `b`: with the same registers, and with the
same responses delivered on the way. -/
def AnswersAlike (a b : State) (x y : Result) : Prop :=
  ∀ a', x = .next a' → ∃ b' rs, y = .next b' ∧ SameRegs a' b' ∧ Delivers a a' rs ∧ Delivers b b' rs

/-- A core transition of equal registers leaves equal registers. -/
theorem SameRegs.advance {a b : State} (h : SameRegs a b) : SameRegs a.advance b.advance :=
  ⟨congrArg₂ stepFn h.state h.inc, h.inc, h.seeded⟩

/-- Equal registers have the same serialised form (R21). -/
theorem SameRegs.exportWords {a b : State} (h : SameRegs a b) : a.exportWords = b.exportWords := by
  rw [State.exportWords, State.exportWords, h.state, h.inc]

/-- Equal registers give equal outputs (R28). -/
theorem SameRegs.outputAt {a b : State} (h : SameRegs a b) (n : Nat) : outputAt a n = outputAt b n :=
  outputAt_congr h.state h.inc n

/-- One and the same response, delivered from equal registers with nothing delivered before it on the way. -/
theorem answersAlike_deliver {a b a' b' : State} (h : SameRegs a' b') (ha : a'.delivered = a.delivered)
    (hb : b'.delivered = b.delivered) (r : Response) : AnswersAlike a b (.next (a'.deliver r)) (.next (b'.deliver r)) := by
  rintro _ ⟨⟩
  exact ⟨_, [r], rfl, ⟨h.state, h.inc, h.seeded⟩, congrArg (· ++ [r]) ha, congrArg (· ++ [r]) hb⟩

theorem answersAlike_raise {a b : State} (h : SameRegs a b) (f : Status) : AnswersAlike a b (raise f a) (raise f b) :=
  answersAlike_deliver h rfl rfl _

/-- A command that needs no seeding is refused in both states or completes in both, with registers that are functions of the
old `INC` (`exec_deterministic_seeding`). -/
theorem exec_seeding_answersAlike {i : Instr} (hneeds : i.needsSeeding = false) (hdet : i.deterministic = true)
    {a b : State} (h : SameRegs a b) : AnswersAlike a b (exec i a) (exec i b) := by
  obtain hrefused | ⟨newState, newInc, -, heq⟩ := exec_deterministic_seeding hneeds hdet
  · rw [hrefused, hrefused]
    exact answersAlike_raise h _
  · rw [heq, heq, h.inc]
    rintro _ ⟨⟩
    exact ⟨_, _, rfl, ⟨rfl, rfl, rfl⟩, rfl, rfl⟩

/-- The raw path answers the output of the old `STATE` (R92). -/
theorem respondDraw_answersAlike {a b : State} (h : SameRegs a b) : AnswersAlike a b (respondDraw a) (respondDraw b) := by
  have hb : respondDraw b = .next (b.advance.deliver ⟨.ok, outputAt a 0, 0, 0, 0⟩) := by rw [h.outputAt]; rfl
  rw [hb]
  exact answersAlike_deliver h.advance rfl rfl _

/-- The loop of `RANGED` accepts the same candidate from equal registers. -/
theorem rangedLoop_of_sameRegs {a b : State} (h : SameRegs a b) {m v : Word} {fuel : Nat} {t : State}
    (hloop : rangedLoop m fuel a = some (v, t)) :
    ∃ n, t = a.writeState (stateAfter a n) ∧ rangedLoop m fuel b = some (v, b.writeState (stateAfter b n)) := by
  obtain ⟨n, hn, hfirst, rfl, rfl⟩ := (rangedLoop_eq_some ..).1 hloop
  have hfirst' : FirstAccepted m b n := by simpa only [FirstAccepted, h.outputAt] using hfirst
  exact ⟨n + 1, rfl, (rangedLoop_eq_some ..).2 ⟨n, hn, hfirst', by rw [h.outputAt], rfl⟩⟩

/-- The fast path masks the output of the old `STATE` (R98). -/
theorem rangedFast_eq (m : Word) (s : State) :
    rangedFast m s = (outputAt s 0 &&& (m - 1), s.writeState (stateAfter s 1)) := rfl

/-- `RANGED` draws the same value in as many transitions from equal registers, on its fast path and in its loop. -/
theorem ranged_of_sameRegs {a b : State} (h : SameRegs a b) {m v : Word} {t : State} (hr : ranged m a = some (v, t)) :
    ∃ n, t = a.writeState (stateAfter a n) ∧ ranged m b = some (v, b.writeState (stateAfter b n)) := by
  by_cases hpow : m &&& (m - 1) = 0
  · rw [ranged, if_pos hpow, rangedFast_eq] at hr
    cases hr
    exact ⟨1, rfl, by rw [ranged, if_pos hpow, rangedFast_eq, h.outputAt]⟩
  · rw [ranged, if_neg hpow] at hr
    rw [ranged, if_neg hpow]
    exact rangedLoop_of_sameRegs h hr

/-- The ranged path answers alike: when `RANGED` does, by `ranged_of_sameRegs`. -/
theorem respondRanged_answersAlike {a b : State} (h : SameRegs a b) (m : Word) :
    AnswersAlike a b (respondRanged m a) (respondRanged m b) := by
  cases hr : ranged m a with
  | none =>
    rw [respondRanged, hr]
    nofun
  | some vt =>
    obtain ⟨v, t⟩ := vt
    obtain ⟨n, rfl, hb⟩ := ranged_of_sameRegs h hr
    have hregs : SameRegs (a.writeState (stateAfter a n)) (b.writeState (stateAfter b n)) :=
      ⟨stateAfter_congr h.state h.inc n, h.inc, h.seeded⟩
    rw [respondRanged, hr, respondRanged, hb]
    exact answersAlike_deliver hregs rfl rfl _

/-- Every branch of `INTEGER_PROC` answers alike, its checks reading the bound alone (R92). -/
theorem integerProc_answersAlike {a b : State} (h : SameRegs a b) (hs : a.seeded = true) (m : Int) :
    AnswersAlike a b (integerProc m a) (integerProc m b) := by
  rw [integerProc, integerProc, whenSeeded_of_seeded hs, whenSeeded_of_seeded (h.seeded.symm.trans hs)]
  split_ifs
  · exact answersAlike_raise h _
  · exact answersAlike_raise h _
  · exact respondDraw_answersAlike h
  · exact respondRanged_answersAlike h _

/-- A command that needs a seeding answers alike from equal registers: `NotSeeded`, or as its sampling does. -/
theorem exec_sampling_answersAlike {i : Instr} (hneeds : i.needsSeeding = true) {a b : State} (h : SameRegs a b) :
    AnswersAlike a b (exec i a) (exec i b) := by
  cases hs : a.seeded with
  | false =>
    rw [exec_of_unseeded hneeds hs, exec_of_unseeded hneeds (h.seeded.symm.trans hs)]
    exact answersAlike_raise h _
  | true =>
    have hs' : b.seeded = true := h.seeded.symm.trans hs
    cases i with
    | getState =>
      rw [exec_getState_of_seeded hs, exec_getState_of_seeded hs', h.exportWords]
      exact answersAlike_deliver h rfl rfl _
    | next32 =>
      rw [exec, execNext32, exec, execNext32, whenSeeded_of_seeded hs, whenSeeded_of_seeded hs']
      exact respondDraw_answersAlike h
    | integerRaw | integerU | integerS => exact integerProc_answersAlike h hs _
    | number =>
      rw [exec, execNumber, exec, execNumber, whenSeeded_of_seeded hs, whenSeeded_of_seeded hs']
      simp only [draw_fst, draw_snd, h.outputAt, h.advance.outputAt]
      exact answersAlike_deliver h.advance.advance rfl rfl _
    | seedRnd | seed1 | seed2 | seed4 | seedW | seedWI | setState => cases hneeds

/-- Every command other than `SEED.RND` is a function of the registers (R91). -/
theorem exec_answersAlike {i : Instr} (hdet : i.deterministic = true) {a b : State} (h : SameRegs a b) :
    AnswersAlike a b (exec i a) (exec i b) := by
  cases hneeds : i.needsSeeding with
  | false => exact exec_seeding_answersAlike hneeds hdet h
  | true => exact exec_sampling_answersAlike hneeds h

/-! ### Scripts -/

/-- A script completes when its first command answers and the rest completes from there (R129). -/
theorem runScript_cons_eq_next {i : Instr} {is : List Instr} {s u : State} :
    runScript (i :: is) s = .next u ↔ ∃ t, exec i s = .next t ∧ runScript is t = .next u := by
  rw [runScript]
  cases exec i s with
  | next t => simp
  | fault => simp
  | refused => simp

/-- Responses delivered one after the other. -/
theorem delivers_trans {s t u : State} {rs qs : List Response} (h : Delivers s t rs) (h' : Delivers t u qs) :
    Delivers s u (rs ++ qs) := by
  rw [Delivers, h', h, List.append_assoc]

/-- Every script without `SEED.RND` is a function of the registers (R91). -/
theorem runScript_answersAlike {script : List Instr} (hdet : ∀ i ∈ script, i.deterministic = true) {a b : State}
    (h : SameRegs a b) : AnswersAlike a b (runScript script a) (runScript script b) := by
  induction script generalizing a b with
  | nil =>
    rintro _ ⟨⟩
    exact ⟨b, [], rfl, h, (List.append_nil _).symm, (List.append_nil _).symm⟩
  | cons i is ih =>
    obtain ⟨hi, his⟩ := List.forall_mem_cons.1 hdet
    intro a'' hrun
    obtain ⟨a', hexec, hrest⟩ := runScript_cons_eq_next.1 hrun
    obtain ⟨b', rs, hexec', h', ha, hb⟩ := exec_answersAlike hi h a' hexec
    obtain ⟨b'', qs, hrest', h'', ha', hb'⟩ := ih his h' a'' hrest
    exact ⟨b'', rs ++ qs, runScript_cons_eq_next.2 ⟨b', hexec', hrest'⟩, h'', delivers_trans ha ha', delivers_trans hb hb'⟩

/-! ### The round trip -/

/-- Forcing bit 0 changes nothing in an odd increment (R77, R79). -/
theorem or_one_eq_self_of_odd {v : Wide} (h : v.getLsbD 0 = true) : v ||| 1 = v := by
  refine BitVec.eq_of_getLsbD_eq fun i hi => ?_
  cases i with
  | zero => rw [forced_odd, h]
  | succ i => simp

/-- Settles O32: the words exported are the halves of `STATE` and `INC`, so `SETSTATE` leaves the registers of `a`, `INC` being
odd; from equal registers every script answers alike. -/
theorem stateRoundTripResumesSequence : Obligations.StateRoundTripResumesSequence := by
  intro a a' b e0 e1 e2 e3 hseeded hodd hget hdelivers
  obtain rfl : a.deliver a.exportWords = a' := by simpa [exec_getState_of_seeded hseeded] using hget
  obtain ⟨-, rfl, rfl, rfl, rfl⟩ := Response.mk.inj (delivers_unique (s := a) rfl hdelivers)
  have hset := exec_setState_four (lo32 a.state) (hi32 a.state) (lo32 a.inc) (hi32 a.inc) b
  rw [wideOf_halves, wideOf_halves, or_one_eq_self_of_odd hodd] at hset
  refine ⟨_, hset, rfl, rfl, fun script a'' hdet hrun => ?_⟩
  have hregs : SameRegs (a.deliver a.exportWords) (b.completed a.state a.inc 0) := ⟨rfl, rfl, hseeded⟩
  obtain ⟨b'', rs, hrun', hregs', ha, hb⟩ := runScript_answersAlike hdet hregs a'' hrun
  exact ⟨b'', rs, hrun', ha, hb, hregs'⟩

end Sys2Proof.Machine
end

section
/-! SUPPORT. Proofs of the family of spec/42_step_output.md: the step function as a permutation of the wide words with a single
cycle, the rotate and the output permutation bit by bit, and `NEXT32`. -/

namespace Sys2Proof.Machine

/-! ### The step function -/

/-- The rule's own order of the product (R62, R82). -/
theorem stepFn_eq_add64_mul64 (s c : Wide) : stepFn s c = add64 (mul64 s multiplier) c :=
  congrArg (add64 · c) (BitVec.mul_comm multiplier s)

/-- The two halves of the constant, as R82 names them. -/
theorem wideOf_multiplier_halves : wideOf 0x4C957F2D 0x5851F42D = multiplier := by decide

/-- Settles O16: the product commutes, and each halved unit gives the halves of its wide one. -/
theorem stepFunctionIsCongruential : Obligations.StepFunctionIsCongruential := by
  refine ⟨fun s c => ⟨stepFn_toNat s c, stepFn_eq_add64_mul64 s c⟩, ?_⟩
  rintro sLo sHi cLo cHi _ _ rfl rfl
  rw [wideOf_add64Halved, wideOf_mul64Halved, wideOf_multiplier_halves, stepFn_eq_add64_mul64]

/-- The inverse of `MULTIPLIER` modulo 2^64 (R83); `multiplier_mul_multiplierInverse` says that it is one. -/
def multiplierInverse : Wide := 0xC097EF87329E28A5

theorem multiplier_mul_multiplierInverse : multiplier * multiplierInverse = 1 := by decide

/-- For a fixed increment the step is undone by subtracting it and multiplying with the inverse of `MULTIPLIER` (R83). -/
theorem stepFn_bijective (c : Wide) : Function.Bijective fun s => stepFn s c := by
  refine Function.bijective_iff_has_inverse.2 ⟨fun t => multiplierInverse * (t - c), fun s => ?_, fun t => ?_⟩
  · calc multiplierInverse * (multiplier * s + c - c)
      _ = multiplier * multiplierInverse * s := by ring
      _ = s := by rw [multiplier_mul_multiplierInverse, one_mul]
  · calc multiplier * (multiplierInverse * (t - c)) + c
      _ = multiplier * multiplierInverse * (t - c) + c := by ring
      _ = t := by rw [multiplier_mul_multiplierInverse, one_mul, sub_add_cancel]

/-- For a base congruent to 1 modulo 4, the sum of its first `n` powers has as many factors 2 as `n`: both sides times
`a - 1` have as many as `a ^ n - 1`. -/
theorem emultiplicity_two_geom_sum {a : ℤ} (ha : 4 ∣ a - 1) (hne : a - 1 ≠ 0) (n : ℕ) :
    emultiplicity 2 (∑ i ∈ Finset.range n, a ^ i) = emultiplicity 2 (n : ℤ) := by
  have hodd : ¬2 ∣ a := by omega
  have hfinite : emultiplicity 2 (a - 1) ≠ ⊤ :=
    finiteMultiplicity_iff_emultiplicity_ne_top.1 (Int.finiteMultiplicity_iff.2 ⟨by decide, hne⟩)
  apply ENat.add_right_injective_of_ne_top hfinite
  calc emultiplicity 2 (a - 1) + emultiplicity 2 (∑ i ∈ Finset.range n, a ^ i)
    _ = emultiplicity 2 (a ^ n - 1 ^ n) := by
      rw [← emultiplicity_mul Int.prime_two, mul_comm, geom_sum_mul, one_pow]
    _ = emultiplicity 2 (a - 1) + emultiplicity 2 (n : ℤ) := Int.two_pow_sub_pow' n ha hodd

/-- The sum of the first `n` powers of `MULTIPLIER`; `iterate_stepFn_modEq` ties it to `n` steps. -/
def multiplierPowerSum (n : ℕ) : ℤ := ∑ i ∈ Finset.range n, 0x5851F42D4C957F2D ^ i

theorem multiplierPowerSum_succ (n : ℕ) :
    multiplierPowerSum (n + 1) = 0x5851F42D4C957F2D * multiplierPowerSum n + 1 := geom_sum_succ

/-- `MULTIPLIER mod 4 = 1` (R83), so the sum of its first `n` powers is 0 modulo 2^64 exactly when `n` is. -/
theorem two_pow_dvd_multiplierPowerSum (n : ℕ) : 2 ^ 64 ∣ multiplierPowerSum n ↔ 2 ^ 64 ∣ n := by
  have hval : emultiplicity 2 (multiplierPowerSum n) = emultiplicity 2 (n : ℤ) :=
    emultiplicity_two_geom_sum (by decide) (by decide) n
  rw [emultiplicity_eq_emultiplicity_iff.1 hval 64]
  exact_mod_cast Int.natCast_dvd_natCast

/-- What the first step adds to `s`, not reduced: `(MULTIPLIER - 1) * s + c`; `iterate_stepFn_modEq` ties it to the step. -/
def firstDifference (s c : Wide) : ℤ := 0x5851F42D4C957F2C * s.toNat + c.toNat

/-- `MULTIPLIER - 1` is even, so with an odd increment the first step adds an odd number. -/
theorem firstDifference_odd {c : Wide} (hc : c.getLsbD 0 = true) (s : Wide) : Odd (firstDifference s c) := by
  have hodd : c.toNat % 2 = 1 := by simpa [BitVec.getLsbD] using hc
  rw [Int.odd_iff, firstDifference]
  omega

theorem stepFn_modEq (s c : Wide) :
    ((stepFn s c).toNat : ℤ) ≡ s.toNat * 0x5851F42D4C957F2D + c.toNat [ZMOD 2 ^ 64] := by
  rw [stepFn_toNat]
  exact_mod_cast Nat.mod_modEq _ _

/-- The closed form of `n` steps: each adds `MULTIPLIER` times what the one before it added. -/
theorem iterate_stepFn_modEq (s c : Wide) (n : ℕ) :
    (((fun v => stepFn v c)^[n] s).toNat : ℤ) ≡
      s.toNat + multiplierPowerSum n * firstDifference s c [ZMOD 2 ^ 64] := by
  induction n with
  | zero => simp [multiplierPowerSum, Int.ModEq.refl]
  | succ n ih =>
    rw [Function.iterate_succ_apply', multiplierPowerSum_succ]
    calc ((stepFn ((fun v => stepFn v c)^[n] s) c).toNat : ℤ)
      _ ≡ ((fun v => stepFn v c)^[n] s).toNat * 0x5851F42D4C957F2D + c.toNat [ZMOD 2 ^ 64] := stepFn_modEq _ c
      _ ≡ (s.toNat + multiplierPowerSum n * firstDifference s c) * 0x5851F42D4C957F2D + c.toNat [ZMOD 2 ^ 64] :=
        (ih.mul_right _).add_right _
      _ = s.toNat + (0x5851F42D4C957F2D * multiplierPowerSum n + 1) * firstDifference s c := by
        rw [firstDifference]
        ring

theorem eq_iff_toNat_modEq (v w : Wide) : v = w ↔ (v.toNat : ℤ) ≡ w.toNat [ZMOD 2 ^ 64] := by
  rw [BitVec.toNat_eq, Int.ModEq]
  omega

/-- With an odd increment, `n` steps lead back exactly when 2^64 divides `n`: the first difference is odd and contributes no
factor 2. -/
theorem iterate_stepFn_eq_self_iff {c : Wide} (hc : c.getLsbD 0 = true) (s : Wide) (n : ℕ) :
    (fun v => stepFn v c)^[n] s = s ↔ 2 ^ 64 ∣ n := by
  have hclosed := iterate_stepFn_modEq s c n
  rw [eq_iff_toNat_modEq, ← two_pow_dvd_multiplierPowerSum]
  constructor
  · intro h
    have hprod := (h.symm.trans hclosed).dvd
    rw [add_sub_cancel_left] at hprod
    exact (Int.isCoprime_two_left.2 (firstDifference_odd hc s)).pow_left.dvd_of_dvd_mul_right hprod
  · intro h
    refine hclosed.trans (Int.modEq_iff_dvd.2 ?_)
    rw [sub_add_cancel_left, dvd_neg]
    exact h.mul_right _

/-- With an odd increment the cycle of every state has length 2^64 (R83). -/
theorem minimalPeriod_stepFn {c : Wide} (hc : c.getLsbD 0 = true) (s : Wide) :
    Function.minimalPeriod (fun v => stepFn v c) s = 2 ^ 64 :=
  eq_of_forall_dvd fun n =>
    Function.isPeriodicPt_iff_minimalPeriod_dvd.symm.trans (iterate_stepFn_eq_self_iff hc s n)

/-- A point with as many iterates as there are words meets every word once. -/
theorem existsUnique_iterate_of_minimalPeriod {w : ℕ} {f : BitVec w → BitVec w} {s : BitVec w}
    (h : Function.minimalPeriod f s = 2 ^ w) (t : BitVec w) : ∃! n, n < 2 ^ w ∧ f^[n] s = t := by
  have hinj {m n : ℕ} (hm : m < 2 ^ w) (hn : n < 2 ^ w) (heq : f^[m] s = f^[n] s) : m = n :=
    (Function.iterate_eq_iterate_iff_of_lt_minimalPeriod (h ▸ hm) (h ▸ hn)).1 heq
  have hsurj : Function.Surjective fun n : Fin (2 ^ w) => (f^[n] s).toFin :=
    Finite.surjective_of_injective fun m n heq => Fin.ext (hinj m.isLt n.isLt (BitVec.toFin_injective heq))
  obtain ⟨n, hn⟩ := hsurj t.toFin
  refine ⟨n, ⟨n.isLt, BitVec.toFin_injective hn⟩, fun m ⟨hm, hmt⟩ => hinj hm n.isLt ?_⟩
  rw [hmt, BitVec.toFin_injective hn]

/-- Settles O17: the step has an inverse, and with an odd increment the period of every state is 2^64. -/
theorem stepHasFullPeriod : Obligations.StepHasFullPeriod :=
  ⟨stepFn_bijective, fun _ s t hc => existsUnique_iterate_of_minimalPeriod (minimalPeriod_stepFn hc s) t⟩

/-! ### The rotate -/

/-- Below 32 the rotate is the library's, whose amount 0 needs no case of its own. -/
theorem ror32_eq_rotateRight (x : Word) {r : ℕ} (hr : r < 32) : ror32 x r = x.rotateRight r := by
  rw [BitVec.rotateRight_eq_rotateRightAux_of_lt hr]
  by_cases h0 : r = 0
  · subst h0
    simp [ror32, BitVec.rotateRightAux]
  · exact if_neg h0

/-- Bit `i` of a rotate comes from bit `i + r`, counted around the 32 bits (R84). -/
theorem ror32_getLsbD (x : Word) {r i : ℕ} (hr : r < 32) (hi : i < 32) :
    (ror32 x r).getLsbD i = x.getLsbD ((i + r) % 32) := by
  rw [ror32_eq_rotateRight x hr, BitVec.getLsbD_rotateRight, Nat.mod_eq_of_lt hr]
  by_cases hwrap : i < 32 - r
  · rw [decide_eq_true hwrap, cond_true, Nat.mod_eq_of_lt (by omega), Nat.add_comm]
  · have hidx : (i + r) % 32 = i - (32 - r) := by omega
    simp [hwrap, hi, hidx]

/-- A rotate by shifts (R84): the bits shifted out on the right come in on the left. -/
theorem ror32_toNat (x : Word) {r : ℕ} (h0 : r ≠ 0) :
    (ror32 x r).toNat = (x.toNat / 2 ^ r ||| x.toNat * 2 ^ (32 - r) % 2 ^ 32) := by
  simp [ror32, h0, Nat.shiftRight_eq_div_pow, Nat.shiftLeft_eq]

/-- Settles O18: the shifts are the definition's, and the bits are those of `ror32_getLsbD`. -/
theorem rotateWrapsWithin32Bits : Obligations.RotateWrapsWithin32Bits := fun x =>
  ⟨rfl, fun _ hr => ⟨ror32_toNat x, fun _ hi => ror32_getLsbD x hr hi⟩⟩

/-! ### The output permutation -/

/-- Bits 58..27 of `(old >> 18) ^ old` (R85); `xshrr_eq` ties it and `rotation` to the permutation. -/
def xorshifted (old : Wide) : Word := ((old >>> 18) ^^^ old).extractLsb' 27 32

/-- Bits 63..59 of `old`, the rotation amount (R85). -/
def rotation (old : Wide) : ℕ := (old.extractLsb' 59 5).toNat

theorem rotation_lt (old : Wide) : rotation old < 32 := (old.extractLsb' 59 5).isLt

theorem rotation_eq (old : Wide) : rotation old = old.toNat / 2 ^ 59 := by
  have hlt := old.isLt
  simp only [rotation, BitVec.extractLsb'_toNat, Nat.shiftRight_eq_div_pow]
  omega

theorem xshrr_eq (old : Wide) : xshrr old = ror32 (xorshifted old) (rotation old) := by
  rw [xshrr, xorshifted, BitVec.setWidth_ushiftRight_eq_extractLsb, rotation_eq, BitVec.toNat_ushiftRight,
    Nat.shiftRight_eq_div_pow]

/-- Settles O19: it is `xshrr_eq`. -/
theorem permutationRotatesXorshiftedBits : Obligations.PermutationRotatesXorshiftedBits := xshrr_eq

/-- The bits of the xorshift (R88); from 19 on the second operand lies above bit 63 and is `false`. -/
theorem xorshifted_getLsbD (old : Wide) {i : ℕ} (hi : i < 32) :
    (xorshifted old).getLsbD i = (old.getLsbD (27 + i) ^^ old.getLsbD (45 + i)) := by
  have hidx : 18 + (27 + i) = 45 + i := by omega
  simp only [xorshifted, BitVec.getLsbD_extractLsb', BitVec.getLsbD_xor, BitVec.getLsbD_ushiftRight, hidx, hi,
    decide_true, Bool.true_and, Bool.xor_comm]

@[simp] theorem lo32_getLsbD (v : Wide) (i : ℕ) : (lo32 v).getLsbD i = (decide (i < 32) && v.getLsbD i) := by
  rw [lo32, BitVec.getLsbD_extractLsb', Nat.zero_add]

/-- The high half starts at bit 32; beyond its own bits both sides are `false`. -/
@[simp] theorem hi32_getLsbD (v : Wide) (i : ℕ) : (hi32 v).getLsbD i = v.getLsbD (32 + i) := by
  rw [hi32, BitVec.getLsbD_extractLsb']
  by_cases hi : i < 32
  · simp [hi]
  · simp [hi, BitVec.getLsbD_of_ge v (32 + i) (by omega)]

/-- The bits of the halved xorshift: those of the low half from 27 on, below the low bits of the high half (R86, R87). -/
theorem xorshifted_halved (old : Wide) :
    (((lo32 old >>> 18) ||| (hi32 old <<< 14)) ^^^ lo32 old) >>> 27 ||| ((hi32 old >>> 18) ^^^ hi32 old) <<< 5 =
      xorshifted old := by
  refine BitVec.eq_of_getLsbD_eq fun i hi => ?_
  rw [xorshifted_getLsbD old hi, Bool.xor_comm]
  simp only [BitVec.getLsbD_or, BitVec.getLsbD_xor, BitVec.getLsbD_ushiftRight, BitVec.getLsbD_shiftLeft, lo32_getLsbD,
    hi32_getLsbD]
  by_cases hlow : i < 5
  · have hidx : 32 + (27 + i - 14) = 45 + i := by omega
    have hin : 27 + i < 32 := by omega
    have hout : ¬18 + (27 + i) < 32 := by omega
    have hge : ¬27 + i < 14 := by omega
    simp [hlow, hidx, hin, hout, hge]
  · have hshifted : 32 + (18 + (i - 5)) = 45 + i := by omega
    have hkept : 32 + (i - 5) = 27 + i := by omega
    have hout : ¬27 + i < 32 := by omega
    have hbeyond : ¬18 + (27 + i) < 32 := by omega
    simp [hlow, hi, hshifted, hkept, hout, hbeyond]

/-- Settles O20: the rotation amount is the top five bits of the high half too, and the xorshift is the same in halves. -/
theorem halvedPermutationEqualsWide : Obligations.HalvedPermutationEqualsWide := by
  intro old
  have hrot : (hi32 old >>> 27).toNat = rotation old := by
    rw [rotation_eq, BitVec.toNat_ushiftRight, hi32_toNat, Nat.shiftRight_eq_div_pow, Nat.div_div_eq_div_mul,
      ← Nat.pow_add]
  rw [xshrr_eq, ← xorshifted_halved, ← hrot]
  rfl

/-- The output is a function of bits 63..27 (R88). -/
theorem xshrr_congr {a b : Wide} (h : a.toNat / 2 ^ 27 = b.toNat / 2 ^ 27) : xshrr a = xshrr b := by
  have hbit (i : ℕ) : a.getLsbD (27 + i) = b.getLsbD (27 + i) := by
    have hshift : a >>> 27 = b >>> 27 := by
      apply BitVec.eq_of_toNat_eq
      simpa only [BitVec.toNat_ushiftRight, Nat.shiftRight_eq_div_pow] using h
    simpa only [BitVec.getLsbD_ushiftRight] using congrArg (·.getLsbD i) hshift
  have hxs : xorshifted a = xorshifted b := by
    refine BitVec.eq_of_getLsbD_eq fun i hi => ?_
    have hidx : 45 + i = 27 + (18 + i) := by omega
    rw [xorshifted_getLsbD a hi, xorshifted_getLsbD b hi, hidx, hbit, hbit]
  have hrot : rotation a = rotation b := by
    rw [rotation_eq, rotation_eq]
    omega
  rw [xshrr_eq, xshrr_eq, hxs, hrot]

/-- Settles O21: the bits are those of the rotate and of the xorshift, and both read bits 63..27 alone. -/
theorem permutationBitByBit : Obligations.PermutationBitByBit := by
  refine ⟨fun old => ⟨(xorshifted old).getLsbD, fun i hi => ?_, fun i hlow hhigh => ?_, fun i hi => ?_⟩,
    fun _ _ => xshrr_congr⟩
  · exact xorshifted_getLsbD old (by omega)
  · rw [xorshifted_getLsbD old (by omega), BitVec.getLsbD_of_ge old (45 + i) (by omega), Bool.xor_false]
  · rw [xshrr_eq, ror32_getLsbD _ (rotation_lt old) hi, rotation_eq]

/-! ### `NEXT32` and determinism -/

/-- Settles O34: the two branches of the lifecycle check. -/
theorem next32Result : Obligations.Next32Result :=
  ⟨fun _ _ _ _ => decode_eq_ok_iff.2 ⟨rfl, rfl, rfl⟩, fun _ => ⟨fun hs => whenSeeded_of_seeded hs _, exec_of_unseeded rfl⟩⟩

/-- Settles O52: it is `runScript_answersAlike`. -/
theorem equalStatesAnswerScriptsAlike : Obligations.EqualStatesAnswerScriptsAlike :=
  fun _ _ _ _ hdet h hrun => runScript_answersAlike hdet h _ hrun

end Sys2Proof.Machine
end

section
/-! SUPPORT. Proofs of the family of spec/43_samplers.md: the skew, the two paths of `RANGED`, the termination of its loop
and the exactness of the loop's bound, the `INTEGER` commands, and `NUMBER` with its binary64 pattern. -/

namespace Sys2Proof.Machine

/-! ### The skew -/

/-- `2^32 - m` and `2^32` differ by one `m` (R96). -/
theorem skew_eq_two_pow_mod {m : Word} (h : m ≠ 0) : (skew m).toNat = 2 ^ 32 % m.toNat := by
  rw [skew_toNat h, ← Nat.mod_eq_sub_mod m.isLt.le]

theorem skew_lt {m : Word} (h : m ≠ 0) : (skew m).toNat < m.toNat := by
  rw [skew_toNat h]
  exact Nat.mod_lt _ (BitVec.toNat_pos_of_ne_zero h)

theorem skew_le {m : Word} (h : m ≠ 0) : (skew m).toNat ≤ 2 ^ 32 - m.toNat := by
  rw [skew_toNat h]
  exact Nat.mod_le _ _

/-- Below half of the words: the skew is below `m` and below `2^32 - m` (R96). -/
theorem skew_lt_half {m : Word} (h : m ≠ 0) : (skew m).toNat < 2 ^ 31 := by
  have hlt := skew_lt h
  have hle := skew_le h
  omega

theorem skew_eq_zero_iff_dvd {m : Word} (h : m ≠ 0) : (skew m).toNat = 0 ↔ m.toNat ∣ 2 ^ 32 := by
  rw [skew_eq_two_pow_mod h, Nat.dvd_iff_mod_eq_zero]

/-- A word that is a power of two is one of the 32 powers `2^0` to `2^31`. -/
theorem exponent_le_of_toNat_eq {m : Word} {k : ℕ} (hk : m.toNat = 2 ^ k) : k ≤ 31 := by
  have hlt : 2 ^ k < 2 ^ 32 := hk ▸ m.isLt
  exact Nat.le_of_lt_succ ((Nat.pow_lt_pow_iff_right (by decide)).1 hlt)

/-- The words that divide `2^32` are its smaller powers of two (R96). -/
theorem skew_eq_zero_iff_pow {m : Word} (h : m ≠ 0) : (skew m).toNat = 0 ↔ ∃ k, m.toNat = 2 ^ k := by
  rw [skew_eq_zero_iff_dvd h]
  constructor
  · intro hdvd
    obtain ⟨k, -, hk⟩ := (Nat.dvd_prime_pow Nat.prime_two).1 hdvd
    exact ⟨k, hk⟩
  · rintro ⟨k, hk⟩
    rw [hk]
    exact Nat.pow_dvd_pow 2 ((exponent_le_of_toNat_eq hk).trans (by decide))

/-- Settles O39: the clauses are the lemmas above, the last one being what the remainder of `2^32` leaves. -/
theorem skewFormsAndBounds : Obligations.SkewFormsAndBounds := by
  intro m hm
  refine ⟨skew_toNat hm, skew_eq_two_pow_mod hm, skew_lt hm, skew_le hm, skew_lt_half hm, skew_eq_zero_iff_dvd hm,
    skew_eq_zero_iff_pow hm, ?_⟩
  rw [skew_eq_two_pow_mod hm]
  exact Nat.dvd_sub_mod _

/-! ### The fast path -/

theorem sub_one_toNat {m : Word} (h : m ≠ 0) : (m - 1).toNat = m.toNat - 1 := by
  have hpos := BitVec.toNat_pos_of_ne_zero h
  bv_omega

/-- The test of the fast path selects the powers of two (R98). -/
theorem and_sub_one_eq_zero_iff {m : Word} (h : m ≠ 0) : m &&& (m - 1) = 0 ↔ ∃ k, m.toNat = 2 ^ k := by
  rw [BitVec.toNat_eq, BitVec.toNat_and, sub_one_toNat h]
  exact Nat.and_sub_one_eq_zero_iff_isPowerOfTwo (BitVec.toNat_pos_of_ne_zero h).ne'

/-- For a power of two the mask keeps the remainder (R98). -/
theorem and_sub_one_eq_mod {m : Word} (h : m ≠ 0) {k : ℕ} (hk : m.toNat = 2 ^ k) (x : Word) : x &&& (m - 1) = x % m := by
  apply BitVec.eq_of_toNat_eq
  rw [BitVec.toNat_and, sub_one_toNat h, BitVec.toNat_umod, hk, Nat.and_two_pow_sub_one_eq_mod]

/-- For a power of two the skew is 0, so the loop accepts its first candidate, as the fast path does (R98). -/
theorem rangedLoop_eq_rangedFast {m : Word} (h : m ≠ 0) (hpow : m &&& (m - 1) = 0) (s : State) :
    rangedLoop m loopBound s = some (rangedFast m s) := by
  obtain ⟨k, hk⟩ := (and_sub_one_eq_zero_iff h).1 hpow
  have hskew : (skew m).toNat = 0 := (skew_eq_zero_iff_pow h).2 ⟨k, hk⟩
  have hfirst : FirstAccepted m s 0 := ⟨nofun, by omega⟩
  rw [rangedFast_eq, and_sub_one_eq_mod h hk]
  exact (rangedLoop_eq_some ..).2 ⟨0, Nat.two_pow_pos 64, hfirst, rfl, rfl⟩

/-- `RANGED` is its general path: the fast path changes nothing (R98). -/
theorem ranged_eq_rangedLoop {m : Word} (h : m ≠ 0) (s : State) : ranged m s = rangedLoop m loopBound s := by
  by_cases hpow : m &&& (m - 1) = 0
  · rw [ranged, if_pos hpow, rangedLoop_eq_rangedFast h hpow]
  · rw [ranged, if_neg hpow]

/-- Settles O40: the test selects the powers of two, where the loop accepts at once. -/
theorem fastPathEqualsGeneralPath : Obligations.FastPathEqualsGeneralPath := by
  intro m s hm
  refine ⟨(and_sub_one_eq_zero_iff hm).trans ⟨?_, ?_⟩, (rangedLoop_eq_rangedFast hm · s), ranged_eq_rangedLoop hm s⟩
  · rintro ⟨k, hk⟩
    exact ⟨k, exponent_le_of_toNat_eq hk, hk⟩
  · rintro ⟨k, -, hk⟩
    exact ⟨k, hk⟩

/-! ### When the loop ends -/

/-- A value of `STATE` whose output no bound rejects: it is in the upper half of the words, above every skew. -/
def acceptedState : Wide := 0x0400000000000000

theorem half_le_xshrr_acceptedState : 2 ^ 31 ≤ (xshrr acceptedState).toNat := by decide

/-- With an odd increment the sequence meets every state within 2^64 transitions (R83), one with an accepted output among
them (R99). -/
theorem exists_accepted_of_incOdd {m : Word} (h : m ≠ 0) {s : State} (hodd : s.IncOdd) :
    ∃ n < loopBound, (skew m).toNat ≤ (outputAt s n).toNat := by
  obtain ⟨n, ⟨hn, hmeets⟩, -⟩ := stepHasFullPeriod.2 s.inc s.state acceptedState hodd
  have hout : outputAt s n = xshrr acceptedState := congrArg xshrr hmeets
  refine ⟨n, hn, ?_⟩
  rw [hout]
  exact (skew_lt_half h).le.trans half_le_xshrr_acceptedState

/-- The iterates of an injective map of words are all among the first `2^w`: they repeat with a period no longer. -/
theorem exists_lt_iterate_eq {w : ℕ} {f : BitVec w → BitVec w} (hf : Function.Injective f) (s : BitVec w) (n : ℕ) :
    ∃ k < 2 ^ w, f^[k] s = f^[n] s := by
  have hpos : 0 < Function.minimalPeriod f s :=
    Function.minimalPeriod_pos_of_mem_periodicPts (hf.mem_periodicPts s)
  have hle : Function.minimalPeriod f s ≤ 2 ^ w := by
    rw [← FinEnum.card_bitVec w, FinEnum.card_eq_fintypeCard]
    exact Function.minimalPeriod_le_card
  exact ⟨n % Function.minimalPeriod f s, (Nat.mod_lt n hpos).trans_le hle, Function.iterate_mod_minimalPeriod_eq⟩

/-- Every output of the sequence is among the first 2^64, the step being a bijection (R83). -/
theorem exists_lt_outputAt_eq (s : State) (n : ℕ) : ∃ k < loopBound, outputAt s k = outputAt s n := by
  obtain ⟨k, hk, heq⟩ := exists_lt_iterate_eq (stepFn_bijective s.inc).injective s.state n
  exact ⟨k, hk, congrArg xshrr heq⟩

/-- The loop gives up exactly when it would never end: its bound is exact (R99, log 5). -/
theorem rangedLoop_eq_none_iff_forall (m : Word) (s : State) :
    rangedLoop m loopBound s = none ↔ ∀ n, (outputAt s n).toNat < (skew m).toNat := by
  rw [rangedLoop_eq_none]
  constructor
  · intro hrejects n
    obtain ⟨k, hk, heq⟩ := exists_lt_outputAt_eq s n
    exact heq ▸ hrejects k hk
  · exact fun hrejects n _ => hrejects n

/-! ### `INTEGER.RAW` and `INTEGER.U` -/

/-- The raw path of `INTEGER_PROC` is `NEXT32` (R93). -/
theorem exec_integerRaw (s : State) : exec .integerRaw s = exec .next32 s := rfl

/-- Settles O35: it is `NEXT32`, of which O34 says the rest. -/
theorem integerRawResult : Obligations.IntegerRawResult :=
  ⟨fun _ _ _ _ => decode_eq_ok_iff.2 ⟨rfl, rfl, rfl⟩, fun s => ⟨exec_integerRaw s, next32Result.2 s⟩⟩

/-- `INTEGER.U 0` is one raw draw (R92). -/
theorem exec_integerU_zero {s : State} (hs : s.seeded = true) : exec (.integerU 0) s = respondDraw s :=
  integerProc_word 0 hs

/-- `INTEGER.U` of another bound answers what the loop of `RANGED` does (R92, R97). -/
theorem exec_integerU_of_ne_zero {m : Word} (h : m ≠ 0) {s : State} (hs : s.seeded = true) :
    exec (.integerU m) s = respondRanged m s :=
  (integerProc_word m hs).trans (if_neg h)

/-- The ranged path with the general loop in place of `RANGED` (R98). -/
theorem respondRanged_of_some {m v : Word} (h : m ≠ 0) {s t : State} (hloop : rangedLoop m loopBound s = some (v, t)) :
    respondRanged m s = respond v 0 0 0 t := by
  rw [respondRanged, ranged_eq_rangedLoop h, hloop]

theorem respondRanged_of_none {m : Word} (h : m ≠ 0) {s : State} (hloop : rangedLoop m loopBound s = none) :
    respondRanged m s = .fault .rejectionLoopStuck := by
  rw [respondRanged, ranged_eq_rangedLoop h, hloop]

/-- The ranged path is stuck exactly when the loop gives up (R99). -/
theorem respondRanged_eq_fault_iff {m : Word} (h : m ≠ 0) (s : State) :
    respondRanged m s = .fault .rejectionLoopStuck ↔ rangedLoop m loopBound s = none := by
  refine ⟨fun hstuck => ?_, respondRanged_of_none h⟩
  cases hloop : rangedLoop m loopBound s with
  | none => rfl
  | some vt => cases (respondRanged_of_some h hloop).symm.trans hstuck

/-- Settles O38: stuck is the loop giving up, which it does only where it would never end. -/
theorem stuckExactlyWhenLoopNeverEnds : Obligations.StuckExactlyWhenLoopNeverEnds := by
  intro s m hs hm
  rw [exec_integerU_of_ne_zero hm hs, respondRanged_eq_fault_iff hm, rangedLoop_eq_none_iff_forall, skew_toNat hm]

/-- What `INTEGER.U` answers, when it does, is the first accepted candidate, reduced (R92, R97). -/
theorem integerAnswer_of_exec {m : Word} {s t : State} (hs : s.seeded = true) (h : exec (.integerU m) s = .next t) :
    IntegerAnswer m s t := by
  by_cases hm : m = 0
  · subst hm
    cases (exec_integerU_zero hs).symm.trans h
    exact .inl ⟨rfl, rfl⟩
  · rw [exec_integerU_of_ne_zero hm hs] at h
    cases hloop : rangedLoop m loopBound s with
    | none => cases (respondRanged_of_none hm hloop).symm.trans h
    | some vt =>
      obtain ⟨v, u⟩ := vt
      obtain ⟨n, -, ⟨hrejects, haccepts⟩, rfl, rfl⟩ := (rangedLoop_eq_some ..).1 hloop
      cases (respondRanged_of_some hm hloop).symm.trans h
      rw [skew_toNat hm] at hrejects haccepts
      exact .inr ⟨hm, n, _, hrejects, haccepts, BitVec.toNat_umod, rfl⟩

/-- With `INC` odd `INTEGER.U` answers: no bound rejects every output (R99). -/
theorem exec_integerU_answers (m : Word) {s : State} (hs : s.seeded = true) (hodd : s.IncOdd) :
    Answers (exec (.integerU m) s) := by
  by_cases hm : m = 0
  · subst hm
    exact ⟨_, exec_integerU_zero hs⟩
  · rw [exec_integerU_of_ne_zero hm hs]
    cases hloop : rangedLoop m loopBound s with
    | none =>
      obtain ⟨n, hn, haccepts⟩ := exists_accepted_of_incOdd hm hodd
      have hrejects := (rangedLoop_eq_none ..).1 hloop n hn
      omega
    | some vt => exact ⟨_, respondRanged_of_some hm hloop⟩

/-- `INTEGER.U` of a seeded block with `INC` odd: it answers, and as R97 says. -/
theorem exec_integerU_integerAnswer (m : Word) {s : State} (hs : s.seeded = true) (hodd : s.IncOdd) :
    ∃ t, exec (.integerU m) s = .next t ∧ IntegerAnswer m s t := by
  obtain ⟨t, ht⟩ := exec_integerU_answers m hs hodd
  exact ⟨t, ht, integerAnswer_of_exec hs ht⟩

/-- Settles O36: by `exec_integerU_integerAnswer`, and `NotSeeded` as every sampling command. -/
theorem integerUResult : Obligations.IntegerUResult :=
  ⟨fun _ _ _ _ => decode_eq_ok_iff.2 ⟨rfl, rfl, rfl⟩,
    fun _ m => ⟨exec_integerU_integerAnswer m, exec_of_unseeded rfl⟩⟩

/-! ### `INTEGER.S` -/

/-- A wide operand with high word 0 is read as its low word (R95). -/
theorem signedWide_wideOf_zero (lo : Word) : signedWide (wideOf lo 0) = lo.toNat := by
  have hlo := lo.isLt
  have hnat : (wideOf lo 0).toNat = lo.toNat := by
    rw [wideOf_toNat]
    exact Nat.zero_add _
  rw [signedWide_eq_toInt, BitVec.toInt_eq_toNat_cond, hnat]
  omega

/-- A wide operand with any other high word is negative or too large for a word (R95). -/
theorem signedWide_wideOf_out_of_range (lo : Word) {hi : Word} (h : hi ≠ 0) :
    signedWide (wideOf lo hi) < 0 ∨ signedWide (wideOf lo hi) > 0xFFFFFFFF := by
  have hhi := hi.isLt
  have hpos := BitVec.toNat_pos_of_ne_zero h
  rw [signedWide_eq_toInt, BitVec.toInt_eq_toNat_cond, wideOf_toNat]
  omega

/-- With high word 0 `INTEGER.S` runs the same procedure as `INTEGER.U` (R95). -/
theorem exec_integerS_wideOf_zero (lo : Word) (s : State) : exec (.integerS (wideOf lo 0)) s = exec (.integerU lo) s :=
  congrArg (integerProc · s) (signedWide_wideOf_zero lo)

/-- A bound out of range is refused before any transition (R92). -/
theorem integerProc_of_out_of_range {m : Int} (h : m < 0 ∨ m > 0xFFFFFFFF) {s : State} (hs : s.seeded = true) :
    integerProc m s = raise .invalidRange s := by
  rw [integerProc, whenSeeded_of_seeded hs]
  by_cases hneg : m < 0
  · exact if_pos hneg
  · rw [if_neg hneg, if_pos (h.resolve_left hneg)]

/-- Settles O37: the high word decides between `INTEGER.U` of the low word and a bound out of range. -/
theorem integerSResult : Obligations.IntegerSResult := by
  refine ⟨fun _ _ _ _ => decode_eq_ok_iff.2 ⟨rfl, rfl, rfl⟩, fun s w0 w1 => ⟨?_, ?_, fun hs h1 => ?_, exec_of_unseeded rfl⟩⟩
  · rintro hs hodd rfl
    rw [exec_integerS_wideOf_zero]
    exact exec_integerU_integerAnswer w0 hs hodd
  · rintro rfl
    exact exec_integerS_wideOf_zero w0 s
  · exact integerProc_of_out_of_range (signedWide_wideOf_out_of_range w0 h1) hs

/-- An answer of `INTEGER` for a bound other than 0 is a remainder by it (R100). -/
theorem IntegerAnswer.lt {m v r1 r2 r3 : Word} {s t : State} (h : IntegerAnswer m s t) (hm : m ≠ 0)
    (hdelivers : Delivers s t [⟨.ok, v, r1, r2, r3⟩]) : v.toNat < m.toNat := by
  obtain ⟨h0, -⟩ | ⟨-, n, u, -, -, hu, rfl⟩ := h
  · exact absurd h0 hm
  · obtain ⟨-, rfl, -⟩ := Response.mk.inj (delivers_unique (s := s) hdelivers rfl)
    rw [hu]
    exact Nat.mod_lt _ (BitVec.toNat_pos_of_ne_zero hm)

/-- Settles O41: the zero-extended bound makes `INTEGER.S` an `INTEGER.U`, whose `OK` answer is a remainder. -/
theorem integerStaysBelowBound : Obligations.IntegerStaysBelowBound := by
  intro s t m v r1 r2 r3 hm hdelivers hexec
  rw [setWidth_eq_wideOf_zero, exec_integerS_wideOf_zero, or_self] at hexec
  cases hs : s.seeded with
  | true => exact (integerAnswer_of_exec hs hexec).lt hm hdelivers
  | false =>
    cases (exec_of_unseeded rfl hs).symm.trans hexec
    cases delivers_unique (s := s) hdelivers rfl

/-! ### The 53-bit fraction -/

/-- The masks keep the low 26 and the low 27 bits (R101). -/
theorem fraction53_eq (a b : Word) : fraction53 a b = a.toNat % 2 ^ 26 * 2 ^ 27 + b.toNat % 2 ^ 27 := by
  rw [fraction53, BitVec.toNat_and, BitVec.toNat_and, Nat.mul_comm, ← Nat.and_two_pow_sub_one_eq_mod,
    ← Nat.and_two_pow_sub_one_eq_mod]
  rfl

theorem fraction53_lt (a b : Word) : fraction53 a b < 2 ^ 53 := by
  rw [fraction53_eq]
  omega

/-- Every integer below 2^53 is put together from its upper 26 and its lower 27 bits (R103). -/
theorem exists_fraction53_eq {k : ℕ} (h : k < 2 ^ 53) : ∃ a b : Word, fraction53 a b = k := by
  refine ⟨BitVec.ofNat 32 (k / 2 ^ 27), BitVec.ofNat 32 (k % 2 ^ 27), ?_⟩
  rw [fraction53_eq, BitVec.toNat_ofNat, BitVec.toNat_ofNat]
  omega

/-! ### The binary64 pattern -/

theorem binary64_zero : binary64 0 = 0 := rfl

/-- Shifted to the place of the leading 1, the integer lies in `2^52 .. 2^53 - 1` (R102). -/
theorem mul_two_pow_bounds {k p : ℕ} (hp : p ≤ 52) (hlo : 2 ^ p ≤ k) (hhi : k < 2 ^ (p + 1)) :
    2 ^ 52 ≤ k * 2 ^ (52 - p) ∧ k * 2 ^ (52 - p) < 2 ^ 53 := by
  have hlow : 2 ^ p * 2 ^ (52 - p) = 2 ^ 52 := by rw [← Nat.pow_add, Nat.add_sub_cancel' hp]
  have hhigh : 2 ^ (p + 1) * 2 ^ (52 - p) = 2 ^ 53 := by rw [← Nat.pow_add]; congr 1; omega
  exact ⟨hlow ▸ Nat.mul_le_mul_right _ hlo, hhigh ▸ Nat.mul_lt_mul_of_pos_right hhi (Nat.two_pow_pos _)⟩

/-- The pattern as a number, from the highest set bit `p` (R102). -/
theorem binary64_toNat {k p : ℕ} (hp : p ≤ 52) (hlo : 2 ^ p ≤ k) (hhi : k < 2 ^ (p + 1)) :
    (binary64 k).toNat = (970 + p) * 2 ^ 52 + k * 2 ^ (52 - p) % 2 ^ 52 := by
  have hne : k ≠ 0 := (Nat.two_pow_pos p |>.trans_le hlo).ne'
  rw [binary64, if_neg hne, (Nat.log2_eq_iff hne).2 ⟨hlo, hhi⟩, BitVec.toNat_ofNat, Nat.mul_comm (2 ^ (52 - p)) k]
  omega

/-- The significand of a non-zero integer below 2^53 is that integer shifted, `2^52 + f` (R102). -/
theorem binary64_significand {k : ℕ} (hpos : 0 < k) (hk : k < 2 ^ 53) :
    ∃ p f, p ≤ 52 ∧ f < 2 ^ 52 ∧ k * 2 ^ (52 - p) = 2 ^ 52 + f ∧ (binary64 k).toNat = (970 + p) * 2 ^ 52 + f := by
  obtain ⟨hlo, hhi⟩ := (Nat.log2_eq_iff hpos.ne').1 rfl
  have hp : Nat.log2 k ≤ 52 := Nat.le_of_lt_succ ((Nat.log2_lt hpos.ne').2 hk)
  obtain ⟨hmin, hmax⟩ := mul_two_pow_bounds hp hlo hhi
  refine ⟨Nat.log2 k, k * 2 ^ (52 - Nat.log2 k) - 2 ^ 52, hp, by omega, by omega, ?_⟩
  rw [binary64_toNat hp hlo hhi]
  omega

/-- A significand scaled by its exponent is the integer over 2^53, exactly (R102). -/
theorem significand_mul_zpow {k p f : ℕ} (hp : p ≤ 52) (h : k * 2 ^ (52 - p) = 2 ^ 52 + f) :
    ((2 ^ 52 + f : ℚ) / 2 ^ 52) * 2 ^ (((970 + p : ℕ) : ℤ) - 1023) = (k : ℚ) / 2 ^ 53 := by
  have hcast : (2 ^ 52 + f : ℚ) = k * 2 ^ (52 - p) := by exact_mod_cast h.symm
  have hexp : (2 : ℚ) ^ (((970 + p : ℕ) : ℤ) - 1023) = 2 ^ p / 2 ^ 53 := by
    have hsub : (((970 + p : ℕ) : ℤ) - 1023) = (p : ℤ) - (53 : ℕ) := by omega
    rw [hsub, zpow_sub₀ two_ne_zero, zpow_natCast, zpow_natCast]
  have hpow : (2 : ℚ) ^ (52 - p) * 2 ^ p = 2 ^ 52 := by rw [← pow_add, Nat.sub_add_cancel hp]
  calc ((2 ^ 52 + f : ℚ) / 2 ^ 52) * 2 ^ (((970 + p : ℕ) : ℤ) - 1023)
    _ = k * (2 ^ (52 - p) * 2 ^ p) / 2 ^ 52 / 2 ^ 53 := by rw [hcast, hexp]; ring
    _ = (k : ℚ) / 2 ^ 53 := by rw [hpow, mul_div_cancel_right₀ _ (by positivity)]

/-- Only 0 has the pattern 0: every other exponent field is at least 970. -/
theorem binary64_eq_zero {k : ℕ} (hk : k < 2 ^ 53) (h : binary64 k = 0) : k = 0 := by
  by_contra hne
  obtain ⟨p, f, -, -, -, hval⟩ := binary64_significand (Nat.pos_of_ne_zero hne) hk
  have hzero : (binary64 k).toNat = 0 := congrArg BitVec.toNat h
  omega

/-- The pattern gives back its fields, and they the integer (R102). -/
theorem binary64_injective {j k : ℕ} (hj : j < 2 ^ 53) (hk : k < 2 ^ 53) (h : binary64 j = binary64 k) : j = k := by
  obtain rfl | hjpos := Nat.eq_zero_or_pos j
  · exact (binary64_eq_zero hk h.symm).symm
  obtain rfl | hkpos := Nat.eq_zero_or_pos k
  · exact binary64_eq_zero hj h
  obtain ⟨p, f, -, hf, hjsig, hjval⟩ := binary64_significand hjpos hj
  obtain ⟨q, g, -, hg, hksig, hkval⟩ := binary64_significand hkpos hk
  rw [h, hkval] at hjval
  obtain ⟨rfl, rfl⟩ : p = q ∧ f = g := by omega
  exact Nat.eq_of_mul_eq_mul_right (Nat.two_pow_pos _) (hjsig.trans hksig.symm)

/-- Settles O43: the fields are `binary64_toNat`, the value is that of the significand, and the fields determine `K`. -/
theorem binary64IsExact : Obligations.Binary64IsExact := by
  refine ⟨binary64_zero, fun _ _ => binary64_toNat, fun k hpos hk => ?_, fun _ _ => binary64_injective⟩
  obtain ⟨p, f, hp, hf, hsig, hval⟩ := binary64_significand hpos hk
  exact ⟨970 + p, f, hval, hf, by omega, by omega, significand_mul_zpow hp hsig⟩

/-! ### `NUMBER` -/

/-- `NUMBER` makes two transitions, and the first output supplies the high bits of `K` (R101). -/
theorem exec_number_of_seeded {s : State} (hs : s.seeded = true) :
    exec .number s = respondFraction (fraction53 (outputAt s 0) (outputAt s 1)) s.advance.advance :=
  whenSeeded_of_seeded hs _

/-- Settles O42: the fraction in arithmetic, and `NotSeeded` as every sampling command. -/
theorem numberResult : Obligations.NumberResult := by
  refine ⟨fun _ _ _ _ => decode_eq_ok_iff.2 ⟨rfl, rfl, rfl⟩, fun s => ⟨fun hs => ?_, exec_of_unseeded rfl⟩⟩
  rintro _ _ _ _ rfl rfl rfl rfl
  rw [exec_number_of_seeded hs, fraction53_eq]
  rfl

/-- A number below 2^64 is put together again from its two words (R101). -/
theorem wideOf_ofNat_halves_toNat {k : ℕ} (h : k < 2 ^ 64) :
    (wideOf (BitVec.ofNat 32 k) (BitVec.ofNat 32 (k / 2 ^ 32))).toNat = k := by
  rw [wideOf_toNat, BitVec.toNat_ofNat, BitVec.toNat_ofNat]
  omega

/-- Settles O44: the response carries `K`, below 2^53, and its pattern, both in halves; every such `K` occurs. -/
theorem numberStaysBelowOne : Obligations.NumberStaysBelowOne := by
  refine ⟨fun s t r hs hexec hdelivers => ?_, fun _ hk => exists_fraction53_eq hk⟩
  cases (exec_number_of_seeded hs).symm.trans hexec
  obtain rfl := delivers_unique (s := s) hdelivers rfl
  have hlt := fraction53_lt (outputAt s 0) (outputAt s 1)
  rw [wideOf_ofNat_halves_toNat (by omega), wideOf_halves]
  exact ⟨hlt, rfl⟩

end Sys2Proof.Machine
end

section
/-! SUPPORT. Proofs of the family of spec/60_exceptions.md: the statuses a command can end in, what a fault leaves unchanged,
and that a fault leaves no trace for the next input, because no step reads the responses already delivered
(`step_ignores_delivered`). -/

namespace Sys2Proof.Machine

/-! ### The statuses a command can end in -/

/-- If `x`, a result reached from `s`, is a next state with one response more, the status of that response is allowed. -/
def EndsIn (s : State) (x : Result) (allowed : Status → Bool) : Prop :=
  ∀ t r, x = .next t → Delivers s t [r] → allowed r.st = true

/-- A result that delivers one response ends in its status. -/
theorem endsIn_deliver {s u : State} (hu : u.delivered = s.delivered) {q : Response} {allowed : Status → Bool}
    (hq : allowed q.st = true) : EndsIn s (.next (u.deliver q)) allowed := by
  rintro _ r ⟨⟩ hr
  obtain rfl : r = q := delivers_unique hr (congrArg (· ++ [q]) hu)
  exact hq

/-- The lifecycle check ends in `NotSeeded` or as the command behind it (R112). -/
theorem endsIn_whenSeeded {s : State} {x : Result} {allowed : Status → Bool} (hun : allowed .notSeeded = true)
    (hx : EndsIn s x allowed) : EndsIn s (whenSeeded s x) allowed := by
  cases hs : s.seeded with
  | false =>
    rw [whenSeeded_of_unseeded hs]
    exact endsIn_deliver rfl hun
  | true => rwa [whenSeeded_of_seeded hs]

/-- `INTEGER_PROC` ends in `OK` or `NotSeeded`, and in `InvalidRange` only for a bound out of range (R92). -/
theorem integerProc_endsIn {m : Int} {s : State} {allowed : Status → Bool} (hok : allowed .ok = true)
    (hun : allowed .notSeeded = true) (hrange : m < 0 ∨ m > 0xFFFFFFFF → allowed .invalidRange = true) :
    EndsIn s (integerProc m s) allowed := by
  obtain ⟨-, heq⟩ | ⟨-, hout, heq⟩ | ⟨-, n, v, t, rfl, heq⟩ | ⟨-, heq, -⟩ := integerProc_cases m s
  all_goals rw [heq]
  · exact endsIn_deliver rfl hun
  · exact endsIn_deliver rfl (hrange hout)
  · exact endsIn_deliver (u := s.writeState (stateAfter s n)) rfl hok
  · nofun

/-- Every command ends in the statuses of its row of R113. -/
theorem exec_endsIn (i : Instr) (s : State) : EndsIn s (exec i s) i.mayEnd := by
  cases i with
  | seedRnd | seed1 | seed2 | seed4 | seedW | seedWI => exact endsIn_deliver rfl rfl
  | setState len e0 e1 e2 e3 =>
    by_cases hlen : len = 4
    · subst hlen
      exact endsIn_deliver rfl rfl
    · rw [(setStateResult.2 s e0 e1 e2 e3).2 len hlen]
      exact endsIn_deliver (u := s) rfl (by simp [Instr.mayEnd, hlen])
  | getState | next32 | number => exact endsIn_whenSeeded rfl (endsIn_deliver rfl rfl)
  | integerRaw => exact integerProc_endsIn rfl rfl (by omega)
  | integerU max =>
    have hmax := max.isLt
    exact integerProc_endsIn rfl rfl (by omega)
  | integerS max => exact integerProc_endsIn rfl rfl fun _ => rfl

/-- Settles O47: it is `exec_endsIn`. -/
theorem commandsEndInTheirStatuses : Obligations.CommandsEndInTheirStatuses :=
  fun i s => exec_endsIn i s

/-! ### `NotSeeded` and `SEEDED` -/

/-- The table of R113 allows `NotSeeded` to the commands that need a seeding only. -/
theorem needsSeeding_of_mayEnd_notSeeded {i : Instr} (h : i.mayEnd .notSeeded = true) : i.needsSeeding = true := by
  cases i with
  | getState | next32 | integerRaw | integerU | integerS | number => rfl
  | seedRnd | seed1 | seed2 | seed4 | seedW | seedWI => cases h
  | setState len =>
    rw [Instr.mayEnd] at h
    split at h <;> cases h

/-- `NotSeeded` says that the command needs a seeding and none has completed (R112). -/
theorem unseeded_of_notSeeded {i : Instr} {s t : State} {r : Response} (h : exec i s = .next t) (hr : Delivers s t [r])
    (hst : r.st = .notSeeded) : i.needsSeeding = true ∧ s.seeded = false := by
  have hneeds := needsSeeding_of_mayEnd_notSeeded (hst ▸ exec_endsIn i s t r h hr)
  refine ⟨hneeds, Bool.eq_false_iff.2 fun hs => ?_⟩
  obtain rfl | ⟨n, q, hq, -, rfl⟩ := exec_sampling_cases hneeds hs h
  · obtain rfl := delivers_unique (s := s) hr rfl
    cases hst
  · obtain rfl := delivers_unique (s := s) hr rfl
    cases hq.symm.trans hst

/-- Only a completed seeding or `SETSTATE` sets `SEEDED`, and no command clears it (R22, R112). -/
theorem seeded_iff_of_exec {i : Instr} {s t : State} {r : Response} (h : exec i s = .next t) (hr : Delivers s t [r]) :
    t.seeded = true ↔ s.seeded = true ∨ (i.needsSeeding = false ∧ r.st = .ok) := by
  obtain ⟨-, f, hf, rfl⟩ | ⟨hneeds, state, inc, -, rfl⟩ | ⟨hneeds, hs, n, q, -, -, rfl⟩ := exec_cases h
  · obtain rfl := delivers_unique (s := s) hr rfl
    simp [hf]
  · obtain rfl := delivers_unique (s := s) hr rfl
    simp [State.completed, hneeds]
  · simp [hs]

/-- Settles O46: before a seeding by `exec_of_unseeded`, and the two clauses on what was delivered by their lemmas. -/
theorem notSeededBeforeSeeding : Obligations.NotSeededBeforeSeeding :=
  fun _ _ => ⟨fun hneeds hs => exec_of_unseeded hneeds hs,
    fun _ _ h hr => ⟨unseeded_of_notSeeded h hr, seeded_iff_of_exec h hr⟩⟩

/-! ### What a fault leaves unchanged -/

/-- A command that ends in a fault only delivers the fault, without data (R115): what writes a register ends in `OK`. -/
theorem exec_fault_eq_deliver {i : Instr} {s t : State} {r : Response} (h : exec i s = .next t) (hr : Delivers s t [r])
    (hst : r.st ≠ .ok) : t = s.deliver ⟨r.st, 0, 0, 0, 0⟩ := by
  obtain ⟨-, f, -, rfl⟩ | ⟨-, state, inc, -, rfl⟩ | ⟨-, -, n, q, hq, -, rfl⟩ := exec_cases h
  · obtain rfl := delivers_unique (s := s) hr rfl
    rfl
  · obtain rfl := delivers_unique (s := s) hr rfl
    exact absurd rfl hst
  · obtain rfl := delivers_unique (s := s) hr rfl
    exact absurd hq hst

/-- A step whose command ends in a fault, decoded or illegal, only takes it from the queue and delivers the fault (R115). -/
theorem step_fault_eq_deliver {s t : State} {c : Command} {rest : List Input} {r : Response}
    (hp : s.pending = .command c :: rest) (h : step s = .next t) (hr : Delivers s t [r]) (hst : r.st ≠ .ok) :
    t = ({ s with pending := rest } : State).deliver ⟨r.st, 0, 0, 0, 0⟩ := by
  cases hd : decode c with
  | error e =>
    cases (step_of_illegal hp hd).symm.trans h
    obtain rfl := delivers_unique (s := s) hr rfl
    rfl
  | ok i => exact exec_fault_eq_deliver ((step_of_decoded hp hd).symm.trans h) hr hst

/-- Settles O50: by `exec_fault_eq_deliver` and `step_fault_eq_deliver`. -/
theorem faultChangesNothing : Obligations.FaultChangesNothing :=
  ⟨fun _ _ _ _ => exec_fault_eq_deliver, fun _ _ _ _ _ => step_fault_eq_deliver⟩

/-! ### No step reads the responses already delivered -/

/-- States with the same registers, queue and counters differ in the responses delivered alone. -/
theorem eq_setDelivered_of_sameRegs {a b : State} (h : SameRegs a b) (hpending : b.pending = a.pending)
    (hdraws : b.entropyDraws = a.entropyDraws) (hresets : b.resets = a.resets) :
    b = { a with delivered := b.delivered } := by
  rw [h.state, h.inc, h.seeded, ← hpending, ← hdraws, ← hresets]

/-- With other responses delivered before it, a command does the same and delivers the same. Where it draws entropy, the
draws have the same indices and so the same answers (log 4). -/
theorem exec_ignores_delivered {i : Instr} {s t : State} (h : exec i s = .next t) (before : List Response) :
    ∃ rs, Delivers s t rs ∧ exec i { s with delivered := before } = .next { t with delivered := before ++ rs } := by
  cases hdet : i.deterministic with
  | true =>
    have hregs : SameRegs s { s with delivered := before } := ⟨rfl, rfl, rfl⟩
    obtain ⟨u, rs, hu, htu, hrs, hrs'⟩ := exec_answersAlike hdet hregs t h
    obtain ⟨hpending, hresets, -, hdraws, -⟩ := frameOfEveryCommand _ _ _ h
    obtain ⟨hpending', hresets', -, hdraws', -⟩ := frameOfEveryCommand _ _ _ hu
    have heq := eq_setDelivered_of_sameRegs htu (hpending'.trans hpending.symm) (hdraws'.trans hdraws.symm)
      (hresets'.trans hresets.symm)
    rw [hrs'] at heq
    exact ⟨rs, hrs, hu.trans (congrArg _ heq)⟩
  | false =>
    cases i with
    | seedRnd =>
      cases (respondDone_seedCore _ _).symm.trans h
      exact ⟨[⟨.ok, 0, 0, 0, 0⟩], rfl, respondDone_seedCore _ _⟩
    | _ => cases hdet

/-- With other responses delivered before it, a step takes the same input, does the same and delivers the same. Entropy
answers and the `STATE` a reset leaves have the same indices (log 4, log 2). -/
theorem step_ignores_delivered {s t : State} (h : step s = .next t) (before : List Response) :
    ∃ rs, Delivers s t rs ∧ step { s with delivered := before } = .next { t with delivered := before ++ rs } := by
  obtain ⟨hp, rfl⟩ | ⟨rest, hp, rfl⟩ | ⟨c, rest, e, hp, hd, rfl⟩ | ⟨c, rest, i, hp, hd, hexec⟩ := step_cases h
  · refine ⟨[], (List.append_nil _).symm, ?_⟩
    rw [List.append_nil]
    exact step_of_pending_nil hp
  · refine ⟨[], (List.append_nil _).symm, ?_⟩
    rw [List.append_nil]
    exact step_of_pending_reset (s := { s with delivered := before }) hp
  · exact ⟨_, rfl, step_of_illegal (s := { s with delivered := before }) hp hd⟩
  · rw [step_of_decoded (s := { s with delivered := before }) hp hd]
    exact exec_ignores_delivered hexec before

/-- Settles O51: by `step_fault_eq_deliver` the state after the fault differs from the one without the faulting command in
the responses delivered alone, and those no step reads. -/
theorem nextCommandIgnoresEarlierFault : Obligations.NextCommandIgnoresEarlierFault := by
  intro s t t' c rest r hp h hr hst h'
  obtain rfl := step_fault_eq_deliver hp h hr hst
  obtain ⟨rs, hrs, hstep⟩ := step_ignores_delivered h' s.delivered
  exact ⟨_, rs, hstep, ⟨rfl, rfl, rfl⟩, rfl, rfl, rfl, hrs, rfl⟩

/-! ### Idle steps, status codes, and the order of the faults -/

/-- Settles O9: it is the first of a step's cases, `step_of_pending_nil`. -/
theorem idleStepHoldsState : Obligations.IdleStepHoldsState := fun _ => step_of_pending_nil

/-- The largest status code is 4 (R108). -/
theorem statusCode_le_four (st : Status) : (statusCode st).toNat ≤ 4 := by cases st <;> decide

/-- Settles O45: the codes as `statusCode` lists them, and their bound. -/
theorem statusCodes : Obligations.StatusCodes := ⟨rfl, rfl, rfl, rfl, rfl, statusCode_le_four⟩

/-- Settles O48: it is the third of a step's cases, `step_of_illegal`. -/
theorem illegalCommandHasNoEffect : Obligations.IllegalCommandHasNoEffect :=
  fun _ _ _ _ hp hd => step_of_illegal hp hd

/-- Settles O49: `IllegalCommand` before anything is executed, `NotSeeded` whatever the bound, and `InvalidState` with no
lifecycle check before it. -/
theorem faultPriority : Obligations.FaultPriority :=
  ⟨fun _ _ _ _ hp hd => ⟨_, step_of_illegal hp hd, rfl⟩,
    fun _ _ hs _ => ⟨_, exec_of_unseeded rfl hs, rfl⟩,
    fun s n e0 e1 e2 e3 hn => ⟨_, (setStateResult.2 s e0 e1 e2 e3).2 n hn, rfl⟩⟩

end Sys2Proof.Machine
end

section
/-! SUPPORT. Proofs of the family of spec/70_reset_and_hazards.md: the reset action as a whole next state, and that with `INC`
odd every step answers. The one way a step could stop is the rejection loop of `INTEGER.U` and `INTEGER.S`, which
`exists_accepted` ends. -/

namespace Sys2Proof.Machine

/-! ### The reset action -/

/-- Settles O2: it is the second of a step's cases, `step_of_pending_reset`, with the reset action's writes as one record. -/
theorem resetActionLeavesUnseededDefaults : Obligations.ResetActionLeavesUnseededDefaults :=
  fun _ _ hp => step_of_pending_reset hp

/-! ### Every step answers -/

/-- With an odd increment every bound accepts one of the first 2^64 outputs (R99). The bound 0, which the loop never gets,
has skew 0 and accepts the first. -/
theorem exists_accepted (m : Word) {s : State} (hodd : s.IncOdd) :
    ∃ n < loopBound, (skew m).toNat ≤ (outputAt s n).toNat := by
  by_cases hm : m = 0
  · subst hm
    exact ⟨0, Nat.two_pow_pos 64, Nat.zero_le _⟩
  · exact exists_accepted_of_incOdd hm hodd

/-- With `INC` odd `INTEGER_PROC` answers for every bound: being stuck would need 2^64 rejected outputs in a row. -/
theorem integerProc_answers (m : Int) {s : State} (hodd : s.IncOdd) : Answers (integerProc m s) := by
  obtain ⟨-, heq⟩ | ⟨-, -, heq⟩ | ⟨-, n, v, t, -, heq⟩ | ⟨-, -, hrejects⟩ := integerProc_cases m s
  · exact ⟨_, heq⟩
  · exact ⟨_, heq⟩
  · exact ⟨t, heq⟩
  · obtain ⟨n, hn, haccepts⟩ := exists_accepted (BitVec.ofInt 32 m) hodd
    exact absurd haccepts (hrejects n hn).not_ge

/-- A command that needs no seeding always answers, whatever `INC` is (R70 to R77). -/
theorem exec_seeding_answers {i : Instr} (hneeds : i.needsSeeding = false) (s : State) : Answers (exec i s) := by
  obtain ⟨-, heq⟩ | ⟨state, inc, -, heq⟩ := exec_seeding_cases hneeds s
  · exact ⟨_, heq s.state⟩
  · exact ⟨_, heq s.state⟩

/-- A command that needs a seeding answers with `INC` odd: `NotSeeded`, or as its sampling does (R132). -/
theorem exec_sampling_answers {i : Instr} (hneeds : i.needsSeeding = true) {s : State} (hodd : s.IncOdd) :
    Answers (exec i s) := by
  cases hs : s.seeded with
  | false => exact ⟨_, exec_of_unseeded hneeds hs⟩
  | true =>
    cases i with
    | getState | next32 | number => exact ⟨_, whenSeeded_of_seeded hs _⟩
    | integerRaw | integerU | integerS => exact integerProc_answers _ hodd
    | seedRnd | seed1 | seed2 | seed4 | seedW | seedWI | setState => cases hneeds

/-- With `INC` odd every command eventually responds (R132). -/
theorem exec_answers (i : Instr) {s : State} (hodd : s.IncOdd) : Answers (exec i s) := by
  cases hneeds : i.needsSeeding with
  | false => exact exec_seeding_answers hneeds s
  | true => exact exec_sampling_answers hneeds hodd

/-- Settles O6: in the four cases of a step, a decoded command answers by `exec_answers`, and the others without a premise.
Taking an input from the queue leaves `INC` as it was. -/
theorem everyStepAnswersWhenIncrementOdd : Obligations.EveryStepAnswersWhenIncrementOdd := by
  intro s hodd
  cases hp : s.pending with
  | nil => exact ⟨s, step_of_pending_nil hp⟩
  | cons x rest =>
    cases x with
    | reset => exact ⟨_, step_of_pending_reset hp⟩
    | command c =>
      cases hd : decode c with
      | error e => exact ⟨_, step_of_illegal hp hd⟩
      | ok i =>
        rw [step_of_decoded hp hd]
        exact exec_answers i hodd

end Sys2Proof.Machine
end
